-- ==== Sys2Proof/Word.lean ====
section
/-! DEFINITION. The words of the machine: the 32-bit bus word, the byte lane of a bridge, the index of an operand
register and the 13-bit word index of the bus window. -/

namespace Sys2Proof

/-- One word of the bus and of the command register (R7, R66). -/
abbrev Word := BitVec 32

/-- One byte lane of a bridge to a byte-addressed bus (R65). -/
abbrev Byte := BitVec 8

/-- The index of an operand register X0 to X15 (R21): every 4-bit value names a register (R90). -/
abbrev RegIdx := Fin 16

/-- The 13-bit word index `widx` of the bus window (R60). -/
abbrev WordIdx := BitVec 13

end Sys2Proof
end

