-- ==== Sys2Proof/Syntax.lean ====
section
/-! DEFINITION. The five commands (R2, R91), one constructor per row of the opcode table, with the registers each one
names (R92), and the raw fields of a command word (R90). -/

namespace Sys2Proof

/-- A command. The destination comes first, then the sources in the order of R96; the modulus of JACOBI is the
register its RB field names (R135). -/
inductive Instr where
  /-- GCD Xd, Xa, Xb (R110). -/
  | gcd (rd ra rb : RegIdx)
  /-- MODEXP Xd, Xa, Xb, Xm (R120). -/
  | modexp (rd ra rb rm : RegIdx)
  /-- JACOBI Xd, Xa, Xn (R135). -/
  | jacobi (rd ra rn : RegIdx)
  /-- MONTMUL Xd, Xa, Xb, Xm (R156). -/
  | montmul (rd ra rb rm : RegIdx)
  /-- MONTR2 Xd, Xm (R157). -/
  | montr2 (rd rm : RegIdx)
  deriving DecidableEq, Repr

/-- The raw fields of a command word in the one format CMD32 (R90). -/
structure Fields where
  /-- OP, bits [7:0] -/
  op : BitVec 8
  /-- RD, bits [11:8] -/
  rd : RegIdx
  /-- RA, bits [15:12] -/
  ra : RegIdx
  /-- RB, bits [19:16] -/
  rb : RegIdx
  /-- RM, bits [23:20] -/
  rm : RegIdx
  /-- ZERO, bits [31:24] -/
  zero : BitVec 8
  deriving DecidableEq, Repr

/-- Why a word is illegal (R94, R171): the three causes the spec lists. -/
inductive Illegal where
  /-- bits [31:24] are not zero -/
  | zeroField
  /-- the opcode is 0x00 or 0x06 to 0xFF -/
  | opcode
  /-- a register field the command does not use is not zero -/
  | unusedField
  deriving DecidableEq, Repr

/-- What a command word decodes to: `Cmd(…)` or `Illegal` (R94). -/
inductive Decoded where
  | cmd (i : Instr)
  | illegal (why : Illegal)
  deriving DecidableEq, Repr

/-- The register that receives the result, RD (R92). -/
def Instr.dest : Instr → RegIdx
  | .gcd rd _ _ => rd
  | .modexp rd _ _ _ => rd
  | .jacobi rd _ _ => rd
  | .montmul rd _ _ _ => rd
  | .montr2 rd _ => rd

/-- The registers a command reads (R92). -/
def Instr.sources : Instr → List RegIdx
  | .gcd _ ra rb => [ra, rb]
  | .modexp _ ra rb rm => [ra, rb, rm]
  | .jacobi _ ra rn => [ra, rn]
  | .montmul _ ra rb rm => [ra, rb, rm]
  | .montr2 _ rm => [rm]

/-- The fields of a command: the fields R92 gives it and zeros elsewhere (R91, R96). -/
def Instr.fields : Instr → Fields
  | .gcd rd ra rb => ⟨0x01, rd, ra, rb, 0, 0⟩
  | .modexp rd ra rb rm => ⟨0x02, rd, ra, rb, rm, 0⟩
  | .jacobi rd ra rn => ⟨0x03, rd, ra, rn, 0, 0⟩
  | .montmul rd ra rb rm => ⟨0x04, rd, ra, rb, rm, 0⟩
  | .montr2 rd rm => ⟨0x05, rd, 0, 0, rm, 0⟩

end Sys2Proof
end

