-- ==== Sys2Proof/WellFormed.lean ====
section
/-! DEFINITION. Well-formed commands: which raw fields make a legal command word (R91's column "fields that must be 0"),
and the same table as rows of a mask and a value. An `Instr` names its registers by `Fin 16`, so an ill-formed one cannot be
written; the checks bite on raw fields. -/

namespace Sys2Proof

/-- R91, the columns OP and "fields that must be 0": ZERO is 0 for every command, RM for GCD and JACOBI, RA and RB for
MONTR2, and the opcode is one of the five. -/
def Fields.wellFormed (f : Fields) : Bool :=
  decide (f.zero = 0) &&
    (decide (f.op = 0x01 ∧ f.rm = 0) || decide (f.op = 0x02) || decide (f.op = 0x03 ∧ f.rm = 0) ||
      decide (f.op = 0x04) || decide (f.op = 0x05 ∧ f.ra = 0 ∧ f.rb = 0))

/-- An instruction is well-formed when its fields are (R91). -/
def Instr.wellFormed (i : Instr) : Bool := i.fields.wellFormed

/-- A row of R91's table of match and mask values: a word c selects the row when `c and mask = value`. -/
structure OpRow where
  mnemonic : String
  mask : Word
  value : Word
  deriving DecidableEq, Repr

/-- The five rows of R91. -/
def opRows : List OpRow :=
  [⟨"GCD", 0xFFF000FF, 0x00000001⟩, ⟨"MODEXP", 0xFF0000FF, 0x00000002⟩, ⟨"JACOBI", 0xFFF000FF, 0x00000003⟩,
   ⟨"MONTMUL", 0xFF0000FF, 0x00000004⟩, ⟨"MONTR2", 0xFF0FF0FF, 0x00000005⟩]

/-- The word c selects the row r (R91). -/
def OpRow.selects (r : OpRow) (c : Word) : Bool := decide (c &&& r.mask = r.value)

/-- The mnemonic of a command (R91). -/
def Instr.mnemonic : Instr → String
  | .gcd _ _ _ => "GCD"
  | .modexp _ _ _ _ => "MODEXP"
  | .jacobi _ _ _ => "JACOBI"
  | .montmul _ _ _ _ => "MONTMUL"
  | .montr2 _ _ => "MONTR2"

end Sys2Proof
end

