-- ==== Sys2Proof/Decode.lean ====
section
/-! DEFINITION. Decoding a command word, total and strict (R94), and the encoder, written from the format R90 and the
opcode map R91. -/

namespace Sys2Proof

/-- The register a 4-bit field names: every value names one (R90). -/
def regOf (v : BitVec 4) : RegIdx := v.toFin

/-- The five fields of a command word and ZERO, cut out of it (R90, R93). -/
def cutFields (c : Word) : Fields where
  op := c.extractLsb' 0 8
  rd := regOf (c.extractLsb' 8 4)
  ra := regOf (c.extractLsb' 12 4)
  rb := regOf (c.extractLsb' 16 4)
  rm := regOf (c.extractLsb' 20 4)
  zero := c.extractLsb' 24 8

/-- R94 on the fields: the ZERO check first, then the opcode with its unused fields. -/
def decodeFields (f : Fields) : Decoded :=
  if f.zero ≠ 0 then .illegal .zeroField
  else if f.op = 0x01 then (if f.rm = 0 then .cmd (.gcd f.rd f.ra f.rb) else .illegal .unusedField)
  else if f.op = 0x02 then .cmd (.modexp f.rd f.ra f.rb f.rm)
  else if f.op = 0x03 then (if f.rm = 0 then .cmd (.jacobi f.rd f.ra f.rb) else .illegal .unusedField)
  else if f.op = 0x04 then .cmd (.montmul f.rd f.ra f.rb f.rm)
  else if f.op = 0x05 then (if f.ra = 0 ∧ f.rb = 0 then .cmd (.montr2 f.rd f.rm) else .illegal .unusedField)
  else .illegal .opcode

/-- The decoder (R94): every 32-bit word is a command or illegal by name. -/
def decode (c : Word) : Decoded := decodeFields (cutFields c)

/-- The command of a decoded word, if it is one. -/
def Decoded.toOption : Decoded → Option Instr
  | .cmd i => some i
  | .illegal _ => none

/-- The word of a set of fields: `c = ZERO·2^24 + RM·2^20 + RB·2^16 + RA·2^12 + RD·2^8 + OP` (R90). -/
def packFields (f : Fields) : Word :=
  BitVec.ofNat 32 (f.zero.toNat * 2 ^ 24 + f.rm.val * 2 ^ 20 + f.rb.val * 2 ^ 16 + f.ra.val * 2 ^ 12 +
    f.rd.val * 2 ^ 8 + f.op.toNat)

/-- The encoder (R90, R91, R96): the fields of the command, zeros elsewhere. -/
def encode (i : Instr) : Word := packFields i.fields

/-- What the decoder reads from an opcode-table row's word: the table numbers a command's bits as the block does, and every
row has 32 of them. A number of more bits than a command has is no command. -/
def decodeTableWord (nbits w : Nat) : Option Instr :=
  if w % 2 ^ nbits < 2 ^ 32 then (decode (BitVec.ofNat 32 (w % 2 ^ nbits))).toOption else none

end Sys2Proof
end

