-- ==== Sys2Proof/Config.lean ====
section
/-! DEFINITION. The two parameters the spec leaves open, the register width W and the position BASE of the window, as
constants without a body, and the constants it fixes. A proof can use nothing about the open ones but their range. -/

namespace Sys2Proof

/-- The number of 32-bit words of an operand register, less one: any of 0 to 255 (R6). DESIGN CHOICE, log entry 1:
it has no body, so a claim holds at every width the spec allows. -/
opaque Config.wordsIndex : Fin 256

/-- WORDS = W / 32, from 1 to 256 (R6, R25). -/
def Config.words : Nat := Config.wordsIndex.val + 1

/-- The position of the window on the platform's bus, in units of 0x8000 bytes (R60). DESIGN CHOICE, log entry 2: no body. -/
opaque Config.baseIndex : Nat

/-- BASE, the host's byte address of the window: a multiple of 0x8000 (R60). -/
def Config.base : Nat := 0x8000 * Config.baseIndex

/-- NREG, the number of operand registers (R7). -/
def Config.nreg : Nat := 16

/-- The size of the window in bytes: 8192 words (R60). -/
def Config.windowBytes : Nat := 0x8000

/-- The identity word, ASCII "MZI" then version 1 (R7, R24). -/
def Config.idWord : Word := 0x4D5A4901

end Sys2Proof
end

