-- ==== Sys2Proof/Machine/State.lean ====
section
/-! DEFINITION. The state: the block's eight components (R20), the turns of the host and the engine that are still to
come, and the read-data output. Plain data throughout. -/

namespace Sys2Proof.Machine

/-- The outcome of the last completed command, STATUS.ERR (R30, R171). Codes 5 to 15 are never written, so they have no
constructor (A18 of 93_implementation_defined.md). DEDUCED, log entry 4. -/
inductive ErrCode where
  /-- code 0, success -/
  | ok
  /-- code 1, the word decodes to no command (R172) -/
  | illegalCmd
  /-- code 2, the modulus register is 0 (R173) -/
  | invalidModulus
  /-- code 3, the modulus is even and not 0 (R174) -/
  | evenModulus
  /-- code 4, the modulus of JACOBI is even, 0 included (R175) -/
  | jacobiDomain
  deriving DecidableEq, Repr

/-- A Jacobi symbol, STATUS.JSYM (R32). The value 0b10 is never written, so it has no constructor. DEDUCED, log entry 4. -/
inductive JSym where
  | zero
  | plusOne
  | minusOne
  deriving DecidableEq, Repr

/-- What `exec` of a command answers in R42: a value, a value with a symbol (JACOBI only), or an error. -/
inductive CmdOutcome where
  | value (v : Nat)
  | valueSym (v : Nat) (j : JSym)
  | error (e : ErrCode)
  deriving DecidableEq, Repr

/-- What an address of the window names (R61, R62). -/
inductive BusTarget where
  | id
  | param
  | ctrl
  | status
  | cmd
  /-- word `k` of operand register `i` -/
  | operand (i : RegIdx) (k : Nat)
  | reserved
  deriving DecidableEq, Repr

/-- The four kinds of step, and no others (R40). -/
inductive StepKind where
  | busWrite (w : WordIdx) (d : Word)
  | busRead (w : WordIdx)
  | reset
  | complete
  deriving DecidableEq, Repr

/-- One turn: a step at the port, or an access on a byte-addressed bus that a bridge carries to the port or refuses
(R65, R66). DESIGN CHOICE, log entries 5 and 9. -/
inductive Turn where
  | port (k : StepKind)
  /-- the bytes are written to rising addresses from `addr` -/
  | bridgeWrite (addr : Nat) (bytes : List Byte)
  | bridgeRead (addr len : Nat)
  deriving DecidableEq, Repr

/-- The architectural state of the block: exactly the eight components of R20. -/
structure Block where
  /-- X0 to X15, natural numbers below 2^W (R21, R22); DEDUCED, log entry 3 -/
  x : Vector Nat 16
  /-- CTRL.IE (R26) -/
  ie : Bool
  /-- STATUS.BUSY (R28) -/
  busy : Bool
  /-- STATUS.DONE (R29) -/
  done : Bool
  /-- STATUS.ERR (R30) -/
  err : ErrCode
  /-- STATUS.WBUSY (R31) -/
  wbusy : Bool
  /-- STATUS.JSYM (R32) -/
  jsym : JSym
  /-- the last accepted command word (R33) -/
  cmdreg : Word
  deriving DecidableEq, Repr

/-- Every piece of the block's state is zero after reset (R37). -/
def Block.reset : Block where
  x := Vector.replicate 16 0
  ie := false
  busy := false
  done := false
  err := .ok
  wbusy := false
  jsym := .zero
  cmdreg := 0

/-- The machine: the block, and beside it what the host will do and when the engine moves (log entry 5), and the last
value on the read-data output (R77, log entry 7). -/
structure State where
  block : Block
  turns : List Turn
  rdata : Word
  deriving DecidableEq, Repr

/-- The machine after reset: the block as R37 says, no access waiting, nothing on the read-data output. -/
def State.reset : State where
  block := Block.reset
  turns := []
  rdata := 0

/-- Where the machine stops. No step of the block does (R170): both faults are raised outside it, by an access on a
byte-addressed bus that never reaches the port. Log entry 9. -/
inductive Fault where
  /-- Raised by a bridged access inside the window that is not one naturally aligned 32-bit word: "A bridge … must refuse
  (with its own bus error)" (R66). Safe: the machine stops where the platform goes on with an error of its own. -/
  | bridgeBusError
  /-- Raised by a bridged access whose first byte lies outside the window at BASE (R60): it is not the block's. Safe. -/
  | outsideWindow
  deriving DecidableEq, Repr

/-- Where the model has no meaning. -/
inductive Refusal where
  /-- An instruction without a meaning, by its mnemonic: raised by no arm, since every command has its meaning. Safe. -/
  | notModelled (mnemonic : String)
  deriving DecidableEq, Repr

end Sys2Proof.Machine
end

