-- ==== Sys2Proof/Machine/Operands.lean ====
section
/-! DEFINITION. Reading operands: registers, their 32-bit words, and the address map of the bus window. -/

namespace Sys2Proof.Machine

/-- W, the width in bits of an operand register of `words` words (R6). -/
def width (words : Nat) : Nat := 32 * words

/-- The value of operand register `i` (R12, `X[i]`). -/
def Block.reg (b : Block) (i : RegIdx) : Nat := b.x[i]

/-- The value of operand register `i` of the machine's block. -/
def State.reg (s : State) (i : RegIdx) : Nat := s.block.reg i

/-- Parity, `even(n)` (R11): 0 is even. -/
def isEven (n : Nat) : Bool := n % 2 == 0

/-- `v[32k+31 : 32k]`, word `k` of a value (R12, R62). -/
def wordOf (v k : Nat) : Word := BitVec.ofNat 32 (v / 2 ^ (32 * k))

/-- The value `v` with `v[32k+31 : 32k]` replaced by `d`, its other bits kept (R69). -/
def setWord (v k : Nat) (d : Word) : Nat :=
  v % 2 ^ (32 * k) + d.toNat * 2 ^ (32 * k) + v / 2 ^ (32 * (k + 1)) * 2 ^ (32 * (k + 1))

/-- The value of a list of words, word 0 the least significant (R64). -/
def valueOfWords : List Word → Nat
  | [] => 0
  | d :: ds => d.toNat + 2 ^ 32 * valueOfWords ds

/-- The word index of word `k` of register `i`: `0x1000 + 0x100·i + k` (R62). -/
def operandIdx (i : RegIdx) (k : Nat) : WordIdx := BitVec.ofNat 13 (0x1000 + 0x100 * i.val + k)

/-- The address map (R61, R62, R63) of a block whose registers have `words` words: in the operand window, `off[13:10]` is
the register and `off[9:2]` the word, so they are bits [11:8] and [7:0] of the word index. -/
def busTarget (words : Nat) (w : WordIdx) : BusTarget :=
  if w = 0x0000 then .id
  else if w = 0x0001 then .param
  else if w = 0x0002 then .ctrl
  else if w = 0x0003 then .status
  else if w = 0x0004 then .cmd
  else if w < 0x1000 then .reserved
  else if (w.extractLsb' 0 8).toNat < words then .operand (regOf (w.extractLsb' 8 4)) (w.extractLsb' 0 8).toNat
  else .reserved

/-- The word a bridge makes of the bytes at four rising addresses: byte address `BASE + off + b` is bits [8b+7 : 8b] (R65). -/
def wordOfBytes : List Byte → Word
  | [] => 0
  | b :: bs => b.setWidth 32 ||| (wordOfBytes bs <<< 8)

/-- The four bytes of a word as a bridge presents them, lowest address first (R65). -/
def bytesOfWord (d : Word) : List Byte :=
  [d.extractLsb' 0 8, d.extractLsb' 8 8, d.extractLsb' 16 8, d.extractLsb' 24 8]

end Sys2Proof.Machine
end

