-- ==== Sys2Proof/Machine/Flags.lean ====
section
/-! DEFINITION. Status and control words as the bus shows them, the codes of their fields, and the interrupt output. -/

namespace Sys2Proof.Machine

/-- The 4-bit code of STATUS.ERR (R171). -/
def ErrCode.code : ErrCode → BitVec 4
  | .ok => 0
  | .illegalCmd => 1
  | .invalidModulus => 2
  | .evenModulus => 3
  | .jacobiDomain => 4

/-- The 2-bit two's-complement code of STATUS.JSYM (R32, R146): 0b00, 0b01, 0b11. -/
def JSym.code : JSym → BitVec 2
  | .zero => 0b00
  | .plusOne => 0b01
  | .minusOne => 0b11

/-- The symbol as an integer, `sext(JSYM)` (R146). -/
def JSym.toInt : JSym → Int
  | .zero => 0
  | .plusOne => 1
  | .minusOne => -1

/-- `jsym(j)` for a symbol j in -1, 0, +1 (R146). -/
def jsymOf (j : Int) : JSym :=
  if j = 0 then .zero else if j = 1 then .plusOne else .minusOne

/-- The STATUS word `{0[31:14], JSYM, 0[11:9], WBUSY, ERR, 0[3:2], DONE, BUSY}` (R27). -/
def Block.statusWord (b : Block) : Word :=
  0#18 ++ b.jsym.code ++ 0#3 ++ BitVec.ofBool b.wbusy ++ b.err.code ++ 0#2 ++ BitVec.ofBool b.done ++ BitVec.ofBool b.busy

/-- The CTRL word `zext_32(IE)` (R26). -/
def Block.ctrlWord (b : Block) : Word := (BitVec.ofBool b.ie).setWidth 32

/-- The PARAM word `{0x00, 0x10, WORDS[15:0]}` (R25, R67). -/
def paramWord (words : Nat) : Word := 0x00#8 ++ BitVec.ofNat 8 Config.nreg ++ BitVec.ofNat 16 words

/-- The interrupt output `irq = CTRL.IE and STATUS.DONE` (R38). -/
def Block.irq (b : Block) : Bool := b.ie && b.done

end Sys2Proof.Machine
end

