-- ==== Sys2Proof/Machine/Ops.lean ====
section
/-! DEFINITION. The shared operations: completing a command and completing it with an error (the block's one exception),
accepting a command, the bus accesses, and one step of any of the four kinds. -/

namespace Sys2Proof.Machine

/-! ### Registers and completion -/

/-- `X[i] <- v` (R12). -/
def Block.setReg (b : Block) (i : RegIdx) (v : Nat) : Block := { b with x := b.x.set i v }

/-- What every completion writes: ERR, JSYM, BUSY and DONE together (R42). -/
def Block.finish (b : Block) (e : ErrCode) (j : JSym) : Block :=
  { b with err := e, jsym := j, busy := false, done := true }

/-- TAKING AN EXCEPTION: completion with an error ("trap entry", R177). ERR gets the code, JSYM is cleared, BUSY falls, DONE
rises, and nothing else changes: no operand register, not CMDREG, not CTRL, not WBUSY. -/
def Block.takeError (b : Block) (e : ErrCode) : Block := b.finish e .zero

/-- RETURNING FROM ONE: the host's acknowledgement ("trap return", R179) clears DONE and restores nothing. -/
def Block.ackDone (b : Block) : Block := { b with done := false }

/-- The writes of the `Complete` step, by the outcome of the command whose destination is `rd` (R42). -/
def Block.complete (b : Block) (rd : RegIdx) : CmdOutcome → Block
  | .value v => (b.setReg rd v).finish .ok .zero
  | .valueSym v j => (b.setReg rd v).finish .ok j
  | .error e => b.takeError e

/-- `Block.complete` on the machine's block. -/
def State.complete (s : State) (rd : RegIdx) (o : CmdOutcome) : State :=
  { s with block := s.block.complete rd o }

/-! ### Bus writes -/

/-- A write to CTRL (R26): bit 31 performs a soft reset (R201) and the rest of the word is then ignored; otherwise IE
takes bit 0. -/
def Block.writeCtrl (b : Block) (d : Word) : Block :=
  if d[31] then Block.reset else { b with ie := d[0] }

/-- A write to STATUS (R27): a 1 in bit 1 acknowledges DONE, a 1 in bit 8 clears WBUSY, the other bits are ignored. -/
def Block.writeStatus (b : Block) (d : Word) : Block :=
  let acked := if d[1] then b.ackDone else b
  if d[8] then { acked with wbusy := false } else acked

/-- The block with the command word `d` in flight, as an accept leaves it (R33). -/
def Block.inFlight (b : Block) (d : Word) : Block :=
  { b with cmdreg := d, busy := true, done := false, err := .ok, jsym := .zero }

/-- A write to CMD (R33): accepted when idle; when busy it is discarded and WBUSY is set (R70). -/
def Block.writeCmd (b : Block) (d : Word) : Block :=
  if b.busy then { b with wbusy := true }
  else b.inFlight d

/-- A write to a mapped operand word: performed when idle (R69); when busy it is discarded and WBUSY is set (R70). -/
def Block.writeOperand (b : Block) (i : RegIdx) (k : Nat) (d : Word) : Block :=
  if b.busy then { b with wbusy := true } else b.setReg i (setWord (b.reg i) k d)

/-- `BusWrite` (R68) on a block whose registers have `words` words. -/
def Block.busWrite (words : Nat) (b : Block) (w : WordIdx) (d : Word) : Block :=
  match busTarget words w with
  | .id => b
  | .param => b
  | .ctrl => b.writeCtrl d
  | .status => b.writeStatus d
  | .cmd => b.writeCmd d
  | .operand i k => b.writeOperand i k d
  | .reserved => b

/-! ### Bus reads -/

/-- `BusRead` (R67): the word at an index of the window. Reading changes nothing. -/
def Block.busRead (words : Nat) (b : Block) (w : WordIdx) : Word :=
  match busTarget words w with
  | .id => Config.idWord
  | .param => paramWord words
  | .ctrl => b.ctrlWord
  | .status => b.statusWord
  | .cmd => b.cmdreg
  | .operand i k => wordOf (b.reg i) k
  | .reserved => 0

/-! ### Bridged accesses and the next step -/

/-- A bridge's decision on an access of `len` bytes at byte address `addr` (R60, R66): one naturally aligned 32-bit word of
the window passes, with its word index; anything else is refused. Log entry 9. -/
def bridgeAdmit (base addr len : Nat) : Except Fault WordIdx :=
  if addr < base ∨ base + Config.windowBytes ≤ addr then .error .outsideWindow
  else if len = 4 ∧ addr % 4 = 0 then .ok (BitVec.ofNat 13 ((addr - base) / 4))
  else .error .bridgeBusError

/-- The step a turn asks for at the port, or the bridge's refusal. -/
def Turn.kind (base : Nat) : Turn → Except Fault StepKind
  | .port k => .ok k
  | .bridgeWrite addr bytes => (bridgeAdmit base addr bytes.length).map fun w => .busWrite w (wordOfBytes bytes)
  | .bridgeRead addr len => (bridgeAdmit base addr len).map fun w => .busRead w

/-- The step that comes next: the first turn's; when no turn is left, the engine's (R210's fairness: a `Complete` that stays
enabled is taken). Log entry 5. -/
def State.nextKind (base : Nat) (s : State) : Except Fault StepKind :=
  match s.turns with
  | [] => .ok .complete
  | t :: _ => t.kind base

/-- The state in which the next step runs: its turn is used up, and the read-data output is 0 unless the step is a read
(R77). -/
def State.beginStep (s : State) : State := { s with turns := s.turns.tail, rdata := 0 }

/-- The `Complete` step (R42), with `ex` for the commands' meanings: enabled when BUSY = 1; the word in CMDREG is decoded, an
illegal word completes with ILLEGAL_CMD (R172). When BUSY = 0 the engine has no step, and its turn passes (log entry 6). -/
def completeStep (ex : Instr → State → Host.Outcome State Fault Refusal) (s : State) :
    Host.Outcome State Fault Refusal :=
  if s.block.busy then
    match decode s.block.cmdreg with
    | .cmd i => ex i s
    | .illegal _ => .next { s with block := s.block.takeError .illegalCmd }
  else .next s

/-- One step of each kind (R40). -/
def performStep (words : Nat) (ex : Instr → State → Host.Outcome State Fault Refusal) (k : StepKind) (s : State) :
    Host.Outcome State Fault Refusal :=
  match k with
  | .busWrite w d => .next { s with block := s.block.busWrite words w d }
  | .busRead w => .next { s with rdata := s.block.busRead words w }
  | .reset => .next { s with block := Block.reset }
  | .complete => completeStep ex s

/-- One step of the machine with register width `words`, window position `base` and command meanings `ex`. -/
def stepWith (words base : Nat) (ex : Instr → State → Host.Outcome State Fault Refusal) (s : State) :
    Host.Outcome State Fault Refusal :=
  match s.nextKind base with
  | .error f => .fault f
  | .ok k => performStep words ex k s.beginStep

end Sys2Proof.Machine
end

