-- ==== Sys2Proof/Machine/Gcd.lean ====
section
/-! DEFINITION. The GCD unit (40_gcd.md). -/

namespace Sys2Proof.Machine

/-- The loop of R110, `while v != 0 do (u, v) := (v, u mod v)`, with a bound on its iterations. -/
def euclidLoop : Nat → Nat → Nat → Nat
  | 0, u, _ => u
  | n + 1, u, v => if v = 0 then u else euclidLoop n v (u % v)

/-- R110's value: v falls at every iteration, so b + 1 iterations are enough (log entry 12). -/
def euclid (a b : Nat) : Nat := euclidLoop (b + 1) a b

/-- `exec(GCD, a, b, _)` (R110): it cannot fail. -/
def gcdOutcome (a b : Nat) : CmdOutcome := .value (euclid a b)

/-- GCD Xd, Xa, Xb (R110). -/
def execGcd (rd ra rb : RegIdx) (s : State) : Host.Outcome State Fault Refusal :=
  .next (s.complete rd (gcdOutcome (s.reg ra) (s.reg rb)))

end Sys2Proof.Machine
end

