-- ==== Sys2Proof/Machine/Jacobi.lean ====
section
/-! DEFINITION. The Jacobi-symbol pipeline (42_jacobi.md). -/

namespace Sys2Proof.Machine

/-- Case 4, jacobi(2, n) for odd n (R139). -/
def jacobiTwo (n : Nat) : Int := if n % 8 = 1 ∨ n % 8 = 7 then 1 else -1

/-- The recursion of R143 in the order of its cases, with a bound on its depth (R144 shows that the pair falls at every
call). Case 2 is not implemented (R137). -/
def jacobiRec : Nat → Nat → Nat → Int
  | 0, _, _ => 0
  | f + 1, a, n =>
    if a = 0 then (if n = 1 then 1 else 0)
    else if a = 1 then 1
    else if a = 2 then jacobiTwo n
    else if a ≥ n then jacobiRec f (a % n) n
    else if a % 2 = 0 then jacobiTwo n * jacobiRec f (a / 2) n
    else if a % 4 = 3 ∧ n % 4 = 3 then -jacobiRec f n a
    else jacobiRec f n a

/-- jacobi(a, n) for odd n (R143). Twice a + n, and 1 more when a < n, falls at every call, so this depth is enough
(log entry 12). -/
def jacobi (a n : Nat) : Int := jacobiRec (2 * (a + n) + 2) a n

/-- `j mod n`, the remainder that is not negative (R11, R146). -/
def residue (j : Int) (n : Nat) : Nat := (j % (n : Int)).toNat

/-- `exec(JACOBI, a, n, _)` (R135): even n, 0 included, is the domain error whatever a is (R147). -/
def jacobiOutcome (a n : Nat) : CmdOutcome :=
  if isEven n then .error .jacobiDomain else .valueSym (residue (jacobi a n) n) (jsymOf (jacobi a n))

/-- JACOBI Xd, Xa, Xn (R135): the modulus is the register the RB field names. -/
def execJacobi (rd ra rn : RegIdx) (s : State) : Host.Outcome State Fault Refusal :=
  .next (s.complete rd (jacobiOutcome (s.reg ra) (s.reg rn)))

end Sys2Proof.Machine
end

