-- ==== Sys2Proof/Machine/Modexp.lean ====
section
/-! DEFINITION. The modular exponentiation engine (41_modexp.md). -/

namespace Sys2Proof.Machine

/-- `bitlen(e)`: the number of bits of e with no leading zeros (R11). -/
def bitlen (e : Nat) : Nat := if e = 0 then 0 else Nat.log2 e + 1

/-- The loop of R121 over bits i - 1 down to 0 of the exponent: a squaring per bit, a multiplication where the bit is 1. -/
def modexpLoop (b e n : Nat) : Nat → Nat → Nat
  | 0, r => r
  | i + 1, r => modexpLoop b e n i (if e.testBit i then r * r % n * b % n else r * r % n)

/-- R120's value base^exp mod N by the reference procedure R121, which can be run at any width (log entry 12). -/
def modexp (base exp n : Nat) : Nat := modexpLoop (base % n) exp n (bitlen exp) (1 % n)

/-- `exec(MODEXP, base, exp, N)` (R120). -/
def modexpOutcome (base exp n : Nat) : CmdOutcome :=
  if n = 0 then .error .invalidModulus else .value (modexp base exp n)

/-- MODEXP Xd, Xa, Xb, Xm (R120). -/
def execModexp (rd ra rb rm : RegIdx) (s : State) : Host.Outcome State Fault Refusal :=
  .next (s.complete rd (modexpOutcome (s.reg ra) (s.reg rb) (s.reg rm)))

end Sys2Proof.Machine
end

