-- ==== Sys2Proof/Machine/Montgomery.lean ====
section
/-! DEFINITION. The Montgomery multiplier (43_montgomery.md), for registers of any number of words. -/

namespace Sys2Proof.Machine

/-- x divided by 2 modulo an odd n: the even one of x and x + n, halved. -/
def halveMod (n x : Nat) : Nat := if x % 2 = 0 then x / 2 else (x + n) / 2

/-- x divided by 2 modulo n, `k` times over. -/
def halvings (n : Nat) : Nat → Nat → Nat
  | 0, x => x
  | k + 1, x => halvings n k (halveMod n x)

/-- R⁻¹ modulo an odd n, for the radix R = 2^w (R155): 1 mod n divided w times by 2 (log entry 12). -/
def radixInv (w n : Nat) : Nat := halvings n w (1 % n)

/-- The Montgomery product (a · b · R⁻¹) mod n (R155). -/
def montprod (w a b n : Nat) : Nat := a * b * radixInv w n % n

/-- R² mod n (R157). -/
def radixSquare (w n : Nat) : Nat := 2 ^ (2 * w) % n

/-- The modulus checks of the Montgomery family in their order: zero before parity (R156, R157, R176). -/
def oddModulus (n v : Nat) : CmdOutcome :=
  if n = 0 then .error .invalidModulus else if isEven n then .error .evenModulus else .value v

/-- MONTMUL (R156) on registers of `words` words. -/
def execMontmulAt (words : Nat) (rd ra rb rm : RegIdx) (s : State) : Host.Outcome State Fault Refusal :=
  .next (s.complete rd (oddModulus (s.reg rm) (montprod (width words) (s.reg ra) (s.reg rb) (s.reg rm))))

/-- MONTR2 (R157) on registers of `words` words. -/
def execMontr2At (words : Nat) (rd rm : RegIdx) (s : State) : Host.Outcome State Fault Refusal :=
  .next (s.complete rd (oddModulus (s.reg rm) (radixSquare (width words) (s.reg rm))))

/-- MONTMUL Xd, Xa, Xb, Xm (R156). -/
def execMontmul (rd ra rb rm : RegIdx) (s : State) : Host.Outcome State Fault Refusal :=
  execMontmulAt Config.words rd ra rb rm s

/-- MONTR2 Xd, Xm (R157). -/
def execMontr2 (rd rm : RegIdx) (s : State) : Host.Outcome State Fault Refusal :=
  execMontr2At Config.words rd rm s

end Sys2Proof.Machine
end

