-- ==== Sys2Proof/Machine/Dispatch.lean ====
section
/-! DEFINITION. One arm per command: `exec` of R42 together with the writes of the `Complete` step. -/

namespace Sys2Proof.Machine

def exec (i : Instr) (s : State) : Host.Outcome State Fault Refusal :=
  match i with
  | .gcd rd ra rb => Sys2Proof.Machine.execGcd rd ra rb s
  | .modexp rd ra rb rm => Sys2Proof.Machine.execModexp rd ra rb rm s
  | .jacobi rd ra rn => Sys2Proof.Machine.execJacobi rd ra rn s
  | .montmul rd ra rb rm => Sys2Proof.Machine.execMontmul rd ra rb rm s
  | .montr2 rd rm => Sys2Proof.Machine.execMontr2 rd rm s

end Sys2Proof.Machine
end

