-- ==== Sys2Proof/Machine/Step.lean ====
section
/-! DEFINITION. The step of the machine, and how a command word is placed for it. -/

namespace Sys2Proof.Machine

/-- One step: the next turn's, or the engine's when no turn is left (R40), with the meanings of `exec`. -/
def step (s : State) : Host.Outcome State Fault Refusal := stepWith Config.words Config.base exec s

/-- The block fetches nothing (R23, R76): the command in flight is the word in CMDREG while BUSY = 1. So the word is put there
as an accept leaves it (R33), and the engine has the next turn. A block's command has 32 bits; log entry 8. -/
def State.withFetchWord (s : State) (nbits w : Nat) : State :=
  { s with block := s.block.inFlight (BitVec.ofNat 32 (w % 2 ^ nbits)), turns := .port .complete :: s.turns }

end Sys2Proof.Machine
end

