-- ==== Sys2Proof/Machine/AnyWidth.lean ====
section
/-! DEFINITION. The machine with its parameters as arguments (R6: "The model takes W as an argument"), so that it can be run
at any one width. `exec` and `step` are these at the open parameters of Config. -/

namespace Sys2Proof.Machine

/-- The meaning of a command on registers of `words` words. Only the Montgomery family looks at the width (R6, R9). -/
def execAt (words : Nat) (i : Instr) (s : State) : Host.Outcome State Fault Refusal :=
  match i with
  | .gcd rd ra rb => execGcd rd ra rb s
  | .modexp rd ra rb rm => execModexp rd ra rb rm s
  | .jacobi rd ra rn => execJacobi rd ra rn s
  | .montmul rd ra rb rm => execMontmulAt words rd ra rb rm s
  | .montr2 rd rm => execMontr2At words rd rm s

/-- One step of a block of `words` words a register, its window at `base`. -/
def stepAt (words base : Nat) (s : State) : Host.Outcome State Fault Refusal :=
  stepWith words base (execAt words) s

end Sys2Proof.Machine
end

