-- ==== Sys2Proof/Machine/HostMacros.lean ====
section
/-! DEFINITION. What a host writes in its programs: the text of a command (R96), the macros of R97 as turns at the port, and
the pseudo-instructions of R98 as the commands they expand to. They are the host's; the block has no encoding for them. -/

namespace Sys2Proof.Machine

/-- `Xi`, with i in decimal (R96). -/
def regName (i : RegIdx) : String := "X" ++ toString i.val

/-- The line of a command: mnemonic, destination, then the sources in the order of R96. -/
def commandLine : Instr → String
  | .gcd rd ra rb => "GCD " ++ regName rd ++ ", " ++ regName ra ++ ", " ++ regName rb
  | .modexp rd ra rb rm => "MODEXP " ++ regName rd ++ ", " ++ regName ra ++ ", " ++ regName rb ++ ", " ++ regName rm
  | .jacobi rd ra rn => "JACOBI " ++ regName rd ++ ", " ++ regName ra ++ ", " ++ regName rn
  | .montmul rd ra rb rm => "MONTMUL " ++ regName rd ++ ", " ++ regName ra ++ ", " ++ regName rb ++ ", " ++ regName rm
  | .montr2 rd rm => "MONTR2 " ++ regName rd ++ ", " ++ regName rm

/-- The word index of a byte offset of the window, `off = 4 · widx` (R60). -/
def offIdx (off : Nat) : WordIdx := BitVec.ofNat 13 (off / 4)

/-- `WR off, d` (R97). -/
def busWr (off : Nat) (d : Word) : Turn := .port (.busWrite (offIdx off) d)

/-- `RD off` (R97). -/
def busRd (off : Nat) : Turn := .port (.busRead (offIdx off))

/-- `LDX Xi, v`: all words of the register, word 0 first (R97). -/
def loadX (words : Nat) (i : RegIdx) (v : Nat) : List Turn :=
  (List.range words).map fun k => busWr (0x4000 + 0x400 * i.val + 4 * k) (wordOf v k)

/-- `STX Xi`: all words of the register (R97). -/
def storeX (words : Nat) (i : RegIdx) : List Turn :=
  (List.range words).map fun k => busRd (0x4000 + 0x400 * i.val + 4 * k)

/-- `CMD <line>`: the write of the command's encoding to CMD (R97). -/
def issue (i : Instr) : Turn := busWr 0x0010 (encode i)

/-- `WAIT` (R97) in a run where STATUS is read busy `polls` times before the `Complete` step and once after it (R210 leaves
their number open). Log entry 19. -/
def waitIdle (polls : Nat) : List Turn :=
  List.replicate polls (busRd 0x000C) ++ [.port .complete, busRd 0x000C]

/-- `ACK`: clears DONE (R97). -/
def ackTurn : Turn := busWr 0x000C 0x00000002

/-- The turns of a list of commands, each followed by `WAIT`. -/
def commandTurns (polls : Nat) (is : List Instr) : List Turn :=
  is.flatMap fun i => issue i :: waitIdle polls

/-- `MODMUL Xd, Xa, Xb, Xm, Xt` (R98); Xm odd, Xt different from Xd and Xm. -/
def modmul (xd xa xb xm xt : RegIdx) : List Instr :=
  [.montmul xd xa xb xm, .montr2 xt xm, .montmul xd xd xt xm]

/-- `TOMONT Xd, Xa, Xm, Xt` (R98); Xm odd, Xt different from Xa and Xm. -/
def tomont (xd xa xm xt : RegIdx) : List Instr := [.montr2 xt xm, .montmul xd xa xt xm]

/-- `FROMMONT Xd, Xa, Xm, Xone` (R98); Xm odd, Xone holds 1. -/
def frommont (xd xa xm xone : RegIdx) : List Instr := [.montmul xd xa xone xm]

/-- `MODRED Xd, Xa, Xm, Xone` (R98); Xm at least 1, Xone holds 1. -/
def modred (xd xa xm xone : RegIdx) : List Instr := [.modexp xd xa xone xm]

end Sys2Proof.Machine
end

