-- ==== Sys2Proof/Machine/Reference.lean ====
section
/-! DEFINITION. The reference procedures the spec gives beside a command's value, for cross-checks and for its work bounds.
Only the value is architectural (R111, R121, R145, R159, R161), so no meaning calls them. -/

namespace Sys2Proof.Machine

/-- The number of iterations of R110's loop (R114). -/
def euclidStepsLoop : Nat → Nat → Nat → Nat
  | 0, _, _ => 0
  | n + 1, u, v => if v = 0 then 0 else euclidStepsLoop n v (u % v) + 1

/-- The number of remainder steps of R110 on a and b (R114). -/
def euclidSteps (a b : Nat) : Nat := euclidStepsLoop (b + 1) a b

/-- The inner loop of R145: a halved while it is even, the sign turned at each halving when n mod 8 is 3 or 5. -/
def stripTwos : Nat → Nat → Nat → Int → Nat × Int
  | 0, a, _, t => (a, t)
  | f + 1, a, n, t =>
    if a ≠ 0 ∧ a % 2 = 0 then stripTwos f (a / 2) n (if n % 8 = 3 ∨ n % 8 = 5 then -t else t) else (a, t)

/-- The outer loop of R145. -/
def jacobiIterLoop : Nat → Nat → Nat → Int → Int
  | 0, _, n, t => if n = 1 then t else 0
  | f + 1, a, n, t =>
    if a = 0 then (if n = 1 then t else 0)
    else
      let a' := (stripTwos a a n t).1
      let t' := (stripTwos a a n t).2
      jacobiIterLoop f (n % a') a' (if n % 4 = 3 ∧ a' % 4 = 3 then -t' else t')

/-- The iterative form of the Jacobi symbol (R145): a falls at every turn of the outer loop. -/
def jacobiIter (a n : Nat) : Int := jacobiIterLoop (a % n + 1) (a % n) n 1

/-- The squarings and the multiplications of R121's loop over bits i - 1 down to 0 of the exponent (R125). -/
def modexpWorkLoop (e : Nat) : Nat → Nat × Nat
  | 0 => (0, 0)
  | i + 1 =>
    let rest := modexpWorkLoop e i
    (rest.1 + 1, if e.testBit i then rest.2 + 1 else rest.2)

/-- The squarings and the multiplications of R121 for an exponent (R125). -/
def modexpWork (exp : Nat) : Nat × Nat := modexpWorkLoop exp (bitlen exp)

/-- popcount: the number of 1 bits among the low w bits of e (R125). -/
def popcount (w e : Nat) : Nat := ((List.range w).filter fun i => e.testBit i).length

/-- The number of turns of R145's inner loop. -/
def halvingCount : Nat → Nat → Nat
  | 0, _ => 0
  | f + 1, a => if a ≠ 0 ∧ a % 2 = 0 then halvingCount f (a / 2) + 1 else 0

/-- The swaps and the halvings of R145's loop (R151). -/
def jacobiWorkLoop : Nat → Nat → Nat → Nat × Nat
  | 0, _, _ => (0, 0)
  | f + 1, a, n =>
    if a = 0 then (0, 0)
    else
      let a' := (stripTwos a a n 1).1
      let rest := jacobiWorkLoop f (n % a') a'
      (rest.1 + 1, rest.2 + halvingCount a a)

/-- The swaps and the halvings of R145 on a and n (R151). -/
def jacobiWork (a n : Nat) : Nat × Nat := jacobiWorkLoop (a % n + 1) (a % n) n

/-- S after `i` steps of the bit-serial loop of R159. -/
def addShift (a b n : Nat) : Nat → Nat
  | 0 => 0
  | i + 1 =>
    let s := addShift a b n i + (if a.testBit i then b else 0)
    (if s % 2 = 1 then s + n else s) / 2

/-- The radix-2 Montgomery product of R159, for operands below n. -/
def montSerial (w a b n : Nat) : Nat :=
  if addShift a b n w ≥ n then addShift a b n w - n else addShift a b n w

/-- `k` modular doublings of x (R161). -/
def doublings (n : Nat) : Nat → Nat → Nat
  | 0, x => x
  | k + 1, x => doublings n k (2 * x % n)

end Sys2Proof.Machine
end

