-- ==== Sys2Proof/Safety.lean ====
section
/-! DEFINITION. What every state of a safe run satisfies, and what a run that does not stop is, in the terms the claims use. -/

namespace Sys2Proof.Machine

/-- Every operand register holds a number below 2^W (R22). -/
def Block.inRange (words : Nat) (b : Block) : Prop := ∀ i : RegIdx, b.reg i < 2 ^ width words

/-- What the status fields of a block always satisfy. -/
structure Block.Consistent (b : Block) : Prop where
  /-- DONE "is never 1 while BUSY = 1" (R29) -/
  notBusyAndDone : ¬(b.busy = true ∧ b.done = true)
  /-- accepting a command clears ERR and JSYM, so they stay clear while it is in flight (R30, R32, R33, R206) -/
  busyClears : b.busy = true → b.err = .ok ∧ b.jsym = .zero
  /-- a failed command leaves JSYM 0b00 (R177) -/
  errorClearsSymbol : b.err ≠ .ok → b.jsym = .zero

/-- The error codes a command can complete with (R171). -/
def raises : Instr → List ErrCode
  | .gcd _ _ _ => []
  | .modexp _ _ _ _ => [.invalidModulus]
  | .jacobi _ _ _ => [.jacobiDomain]
  | .montmul _ _ _ _ => [.invalidModulus, .evenModulus]
  | .montr2 _ _ => [.invalidModulus, .evenModulus]

/-- The error code in STATUS is one that the command word in CMD can raise: code 1 for an illegal word, otherwise a code that
R171 lists for the command. "The offending command word is available in CMD … until the next command is accepted" (R171). -/
def Block.ErrNamesCommand (b : Block) : Prop :=
  match b.err with
  | .ok => True
  | .illegalCmd => ∃ why, decode b.cmdreg = .illegal why
  | e => ∃ i, decode b.cmdreg = .cmd i ∧ e ∈ raises i

/-- A symbol other than 0 in STATUS is that of a JACOBI command, whose word is in CMD (R32). -/
def Block.SymbolNamesJacobi (b : Block) : Prop :=
  b.jsym ≠ .zero → ∃ rd ra rn, decode b.cmdreg = .cmd (.jacobi rd ra rn)

/-- The invariant of the machine: registers in range, consistent status fields. -/
structure State.Inv (s : State) : Prop where
  inRange : s.block.inRange Config.words
  consistent : s.block.Consistent

/-- The state after a command that succeeds with the value `v` for X[rd] and the symbol `j`, written out field by field as
R42 has it: everything not named keeps its value. -/
def State.completedWith (s : State) (rd : RegIdx) (v : Nat) (j : JSym) : State :=
  { block :=
      { x := s.block.x.set rd v
        ie := s.block.ie
        busy := false
        done := true
        err := .ok
        wbusy := s.block.wbusy
        jsym := j
        cmdreg := s.block.cmdreg }
    turns := s.turns
    rdata := s.rdata }

/-- The state after a command that fails with the code `e`, written out field by field as R177 has it. -/
def State.failedWith (s : State) (e : ErrCode) : State :=
  { block :=
      { x := s.block.x
        ie := s.block.ie
        busy := false
        done := true
        err := e
        wbusy := s.block.wbusy
        jsym := .zero
        cmdreg := s.block.cmdreg }
    turns := s.turns
    rdata := s.rdata }

/-- The state with one more turn in front: the step `k` comes next. -/
def State.withTurn (s : State) (k : StepKind) : State := { s with turns := .port k :: s.turns }

/-- `n` steps of the machine, stopping at the first fault or refusal. -/
def runSteps (n : Nat) (s : State) : Host.Outcome State Fault Refusal := Host.Core.run Sys2Proof.core n s

/-- A step at the port, not one a bridge carries. -/
def Turn.isPort : Turn → Bool
  | .port _ => true
  | .bridgeWrite _ _ => false
  | .bridgeRead _ _ => false

/-- Every turn to come is a step at the port, so no bridge can refuse one. -/
def State.portOnly (s : State) : Prop := ∀ t ∈ s.turns, t.isPort = true

/-- A step that resets the block: `rst_n`, or a write to CTRL with bit 31 set (R200, R201). -/
def StepKind.resets (words : Nat) : StepKind → Bool
  | .busWrite w d => decide (busTarget words w = .ctrl) && d[31]
  | .busRead _ => false
  | .reset => true
  | .complete => false

/-- The registers of two blocks agree on a list of indices. -/
def Block.agreeOn (b b' : Block) (is : List RegIdx) : Prop := ∀ i ∈ is, b.reg i = b'.reg i

end Sys2Proof.Machine
end

