-- ==== Sys2Proof/Certificates/Slice0/Obligations.lean ====
section
/-! DEFINITION. The statements about the model, from the numbered rules of the spec. -/

open Sys2Proof Sys2Proof.Machine

/-! ### Encoding -/

/-- R90, R91, R94: every command is well-formed, and decoding its encoding gives it back with every operand; the opcode table's
numbering of its bits gives the same. -/
def Obligations.EncodedCommandDecodesToItself : Prop :=
  ∀ i : Instr, i.wellFormed = true ∧ decode (encode i) = .cmd i ∧ decodeTableWord 32 (encode i).toNat = some i

/-- R94: a word that decodes to a command is that command's encoding: no word has two readings and no bit is ignored. -/
def Obligations.DecodedWordIsItsEncoding : Prop :=
  ∀ (c : Word) (i : Instr), decode c = .cmd i → encode i = c

/-- R91: the words that decode to a command are those that select a row of the table of masks and values, and the row is that
of the command's mnemonic and no other. -/
def Obligations.LegalWordsSelectTheirRow : Prop :=
  ∀ c : Word,
    ((∃ i, decode c = .cmd i) ↔ ∃ r ∈ opRows, r.selects c = true) ∧
    ∀ i, decode c = .cmd i → ∀ r ∈ opRows, (r.selects c = true ↔ r.mnemonic = i.mnemonic)

/-- R94: the illegal words are every word with c[31:24] ≠ 0, every word with OP 0x00 or 0x06 to 0xFF, GCD and JACOBI words with
RM ≠ 0, and MONTR2 words with RA ≠ 0 or RB ≠ 0. -/
def Obligations.IllegalWordsAreExactlyTheListed : Prop :=
  ∀ c : Word,
    (∃ why, decode c = .illegal why) ↔
      c.extractLsb' 24 8 ≠ 0 ∨ c.extractLsb' 0 8 = 0x00 ∨ 0x06 ≤ (c.extractLsb' 0 8).toNat ∨
      ((c.extractLsb' 0 8 = 0x01 ∨ c.extractLsb' 0 8 = 0x03) ∧ c.extractLsb' 20 4 ≠ 0) ∨
      (c.extractLsb' 0 8 = 0x05 ∧ (c.extractLsb' 12 4 ≠ 0 ∨ c.extractLsb' 16 4 ≠ 0))

/-- Section 2.5 of 95_test_vectors.md: sample words, one or more of each row, and one illegal word of each kind. -/
def Obligations.SampleWordsDecodeAsListed : Prop :=
  decode 0x00010201 = .cmd (.gcd 2 0 1) ∧ decode 0x00210502 = .cmd (.modexp 5 0 1 2) ∧
  decode 0x00010303 = .cmd (.jacobi 3 0 1) ∧ decode 0x00264704 = .cmd (.montmul 7 4 6 2) ∧
  decode 0x00200805 = .cmd (.montr2 8 2) ∧ decode 0x00000000 = .illegal .opcode ∧
  decode 0x00110201 = .illegal .unusedField ∧ decode 0x00201805 = .illegal .unusedField ∧
  decode 0x80210502 = .illegal .zeroField

/-! ### Reset and the machine's steps -/

/-- R37: after a hardware reset or a soft reset every piece of state is zero and irq is 0; ID and PARAM read as before. -/
def Obligations.ResetLeavesEverythingZero : Prop :=
  (∀ i, State.reset.reg i = 0) ∧ State.reset.block.ie = false ∧ State.reset.block.busy = false ∧
  State.reset.block.done = false ∧ State.reset.block.err.code = 0 ∧ State.reset.block.wbusy = false ∧
  State.reset.block.jsym.code = 0 ∧ State.reset.block.cmdreg = 0 ∧ State.reset.block.irq = false ∧
  (∀ s : State, ∃ t, step (s.withTurn .reset) = .next t ∧ t.block = State.reset.block) ∧
  (∀ (s : State) (d : Word), d[31] = true →
    ∃ t, step (s.withTurn (.busWrite 2 d)) = .next t ∧ t.block = State.reset.block) ∧
  ∀ b : Block, b.busRead Config.words 0 = State.reset.block.busRead Config.words 0 ∧
    b.busRead Config.words 1 = State.reset.block.busRead Config.words 1

/-- The state after reset meets every invariant stated of the machine. -/
def Obligations.ResetMeetsTheInvariants : Prop :=
  State.reset.Inv ∧ State.reset.block.ErrNamesCommand ∧ State.reset.block.SymbolNamesJacobi

/-- R22, R29, R33, R177: every step keeps the registers below 2^W and the status fields consistent (never BUSY with DONE;
ERR and JSYM clear while BUSY; JSYM clear after an error). -/
def Obligations.StepKeepsRangeAndStatusConsistency : Prop :=
  ∀ s t : State, s.Inv → step s = .next t → t.Inv

/-- R171, R32: every step keeps the relation between STATUS and CMD: the error code is one the command word can raise, and a
symbol other than 0 is that of a JACOBI word. -/
def Obligations.StepKeepsErrorAndSymbolTrueToCommand : Prop :=
  ∀ s t : State, s.block.ErrNamesCommand → s.block.SymbolNamesJacobi → step s = .next t →
    t.block.ErrNamesCommand ∧ t.block.SymbolNamesJacobi

/-- R42: when the engine has the next turn, BUSY = 1 and the word in CMDREG decodes to a command, the step is `exec` of that
command, with the turn used up and the read-data output 0 (log entries 5 and 7, the model's own fields). -/
def Obligations.StepRunsTheDecodedCommand : Prop :=
  ∀ (s : State) (i : Instr), s.nextKind Config.base = .ok .complete → s.block.busy = true → decode s.block.cmdreg = .cmd i →
    step s = exec i { s with turns := s.turns.tail, rdata := 0 }

/-- Log entry 8, the model's own convention: the step after `withFetchWord` runs the command whose word was placed, on the
state an accept of that word leaves. -/
def Obligations.PlacedWordRunsNext : Prop :=
  ∀ (s : State) (i : Instr),
    step (s.withFetchWord 32 (encode i).toNat) =
      exec i { s with block := s.block.inFlight (encode i), rdata := 0 }

/-- R40: a step of each kind that comes next has its effect: a bus write, a bus read that changes nothing but the returned
value, a reset, and, when BUSY = 0, no step of the engine. -/
def Obligations.StepPerformsEachKind : Prop :=
  ∀ s : State,
    (∀ w d, step (s.withTurn (.busWrite w d)) =
      .next { s with block := s.block.busWrite Config.words w d, rdata := 0 }) ∧
    (∀ w, step (s.withTurn (.busRead w)) = .next { s with rdata := s.block.busRead Config.words w }) ∧
    step (s.withTurn .reset) = .next { s with block := Block.reset, rdata := 0 } ∧
    (s.block.busy = false → step (s.withTurn .complete) = .next { s with rdata := 0 })

/-- R40, R170: a machine whose turns are all at the port never stops: every step answers a next state, whose turns are again
all at the port. That the engine has the next turn when the list is empty, and that its turn passes while the block is idle,
are the model's choices, log entries 5 and 6. -/
def Obligations.PortStepsNeverStop : Prop :=
  ∀ s : State, s.portOnly → ∃ t, step s = .next t ∧ t.portOnly

/-- R201, R202: a reset of either kind while a command is in flight leaves the reset state of the block, and the command never
completes: after any number of further steps, over any turns at the port that write no command, BUSY, DONE, ERR, JSYM and irq
are still clear; with no turn to come the machine stays at the reset state. That the engine has the turns after the listed
ones, and that its turn passes while the block is idle, are the model's choices, log entries 5 and 6. -/
def Obligations.ResetAbandonsTheCommand : Prop :=
  ∀ (s t : State) (rest : List Turn), s.block.busy = true →
    (s.turns = .port .reset :: rest ∨ ∃ d : Word, d[31] = true ∧ s.turns = .port (.busWrite 2 d) :: rest) →
    step s = .next t →
    t.block = Block.reset ∧
    ((∀ u ∈ rest, ∃ k : StepKind, u = .port k ∧ ∀ d, k ≠ .busWrite 4 d) →
      ∀ n, ∃ u, runSteps n t = .next u ∧ u.block.busy = false ∧ u.block.done = false ∧ u.block.err = .ok ∧
        u.block.jsym = .zero ∧ u.block.irq = false) ∧
    (rest = [] → ∀ n, runSteps n t = .next State.reset)

/-- R203: after a reset of either kind, in any state, the block accepts a command in the very next step. -/
def Obligations.CommandAcceptedRightAfterReset : Prop :=
  ∀ (s : State) (k : StepKind) (d : Word), (k = .reset ∨ ∃ e : Word, e[31] = true ∧ k = .busWrite 2 e) →
    ∃ t, runSteps 2 { s with turns := [.port k, .port (.busWrite 4 d)] } = .next t ∧
      t.block = { Block.reset with cmdreg := d, busy := true }

/-! ### The commands' results -/

/-- R110: GCD writes the greatest common divisor, 0 for two zeros, and cannot fail; its word is
`RB<<16 | RA<<12 | RD<<8 | 0x01`, illegal with RM ≠ 0 or bits [31:24] ≠ 0. -/
def Obligations.GcdWritesTheGreatestCommonDivisor : Prop :=
  (∀ (rd ra rb : RegIdx) (s : State),
    exec (.gcd rd ra rb) s = .next (s.completedWith rd (Nat.gcd (s.reg ra) (s.reg rb)) .zero)) ∧
  (∀ rd ra rb : RegIdx,
    encode (.gcd rd ra rb) = BitVec.ofNat 32 (rb.val * 2 ^ 16 + ra.val * 2 ^ 12 + rd.val * 2 ^ 8 + 0x01)) ∧
  ∀ c : Word, c.extractLsb' 0 8 = 0x01 →
    ((∃ why, decode c = .illegal why) ↔ c.extractLsb' 20 4 ≠ 0 ∨ c.extractLsb' 24 8 ≠ 0)

/-- R120: MODEXP writes base^exp mod N, with base^0 = 1 for every base, and fails with INVALID_MODULUS when N = 0; its word is
`RM<<20 | RB<<16 | RA<<12 | RD<<8 | 0x02`, illegal with bits [31:24] ≠ 0. -/
def Obligations.ModexpWritesThePowerModulo : Prop :=
  (∀ (rd ra rb rm : RegIdx) (s : State), s.reg rm ≠ 0 →
    exec (.modexp rd ra rb rm) s = .next (s.completedWith rd (s.reg ra ^ s.reg rb % s.reg rm) .zero)) ∧
  (∀ (rd ra rb rm : RegIdx) (s : State), s.reg rm = 0 →
    exec (.modexp rd ra rb rm) s = .next (s.failedWith .invalidModulus)) ∧
  (∀ rd ra rb rm : RegIdx, encode (.modexp rd ra rb rm) =
    BitVec.ofNat 32 (rm.val * 2 ^ 20 + rb.val * 2 ^ 16 + ra.val * 2 ^ 12 + rd.val * 2 ^ 8 + 0x02)) ∧
  ∀ c : Word, c.extractLsb' 0 8 = 0x02 → ((∃ why, decode c = .illegal why) ↔ c.extractLsb' 24 8 ≠ 0)

/-- R135, R146, R149: for an odd modulus JACOBI writes the Jacobi symbol, reduced to a number from 0 to n - 1, and its code in
JSYM, the 2-bit two's-complement number with sext(JSYM) = j. The symbol is Mathlib's, the standard one; that `jacobi` is the spec's recursion is JacobiFollowsTheRecursion. -/
def Obligations.JacobiWritesTheStandardSymbol : Prop :=
  ∀ (rd ra rn : RegIdx) (s : State), s.reg rn % 2 = 1 →
    jacobi (s.reg ra) (s.reg rn) = jacobiSym (s.reg ra) (s.reg rn) ∧
    ∃ j : JSym, j.toInt = jacobiSym (s.reg ra) (s.reg rn) ∧ j.code.toInt = jacobiSym (s.reg ra) (s.reg rn) ∧
      exec (.jacobi rd ra rn) s =
        .next (s.completedWith rd (jacobiSym (s.reg ra) (s.reg rn) % (s.reg rn : Int)).toNat j)

/-- R135: JACOBI's word is `RB<<16 | RA<<12 | RD<<8 | 0x03`, illegal with RM ≠ 0 or bits [31:24] ≠ 0; an odd modulus completes
with `jacobi(a, n) mod n` and the symbol's code. R147: an even one, 0 included, completes with JACOBI_DOMAIN for every a, writes
no operand register and leaves JSYM 0b00. -/
def Obligations.JacobiCompletesByItsRule : Prop :=
  (∀ (rd ra rn : RegIdx) (s : State), s.reg rn % 2 = 1 →
    exec (.jacobi rd ra rn) s =
      .next (s.completedWith rd (jacobi (s.reg ra) (s.reg rn) % (s.reg rn : Int)).toNat
        (jsymOf (jacobi (s.reg ra) (s.reg rn))))) ∧
  (∀ (rd ra rn : RegIdx) (s : State), s.reg rn % 2 = 0 →
    exec (.jacobi rd ra rn) s = .next (s.failedWith .jacobiDomain)) ∧
  (∀ rd ra rn : RegIdx,
    encode (.jacobi rd ra rn) = BitVec.ofNat 32 (rn.val * 2 ^ 16 + ra.val * 2 ^ 12 + rd.val * 2 ^ 8 + 0x03)) ∧
  ∀ c : Word, c.extractLsb' 0 8 = 0x03 →
    ((∃ why, decode c = .illegal why) ↔ c.extractLsb' 20 4 ≠ 0 ∨ c.extractLsb' 24 8 ≠ 0)

/-- R143: the recursion of the Jacobi symbol, the first case that applies in the order 1, 3, 4, 5, 6, 7, for odd n. -/
def Obligations.JacobiFollowsTheRecursion : Prop :=
  ∀ a n : Nat, n % 2 = 1 →
    jacobi a n =
      if a = 0 then (if n = 1 then 1 else 0)
      else if a = 1 then 1
      else if a = 2 then (if n % 8 = 1 ∨ n % 8 = 7 then 1 else -1)
      else if a ≥ n then jacobi (a % n) n
      else if a % 2 = 0 then jacobi 2 n * jacobi (a / 2) n
      else if a % 4 = 3 ∧ n % 4 = 3 then -jacobi n a
      else jacobi n a

/-- R149: multiplicativity for a fixed odd n, with the product reduced or not, and Euler's criterion for an odd prime; R148: the
symbol is 0 exactly when a and n share a factor. -/
def Obligations.JacobiIsMultiplicative : Prop :=
  (∀ a b n : Nat, n % 2 = 1 →
    jacobi (a * b) n = jacobi a n * jacobi b n ∧ jacobi (a * b % n) n = jacobi (a * b) n ∧
      (jacobi a n = 0 ↔ Nat.gcd a n ≠ 1)) ∧
  ∀ a p : Nat, p.Prime → p % 2 = 1 → (jacobi a p % (p : Int)).toNat = a ^ ((p - 1) / 2) % p

/-- R155, R156: MONTMUL writes (a · b · R⁻¹) mod N, R = 2^W, the unique r below N with r · R ≡ a · b; N = 0 fails with
INVALID_MODULUS and other even N with EVEN_MODULUS; its word is `RM<<20 | RB<<16 | RA<<12 | RD<<8 | 0x04`, illegal with bits
[31:24] ≠ 0. -/
def Obligations.MontmulWritesTheMontgomeryProduct : Prop :=
  (∀ (rd ra rb rm : RegIdx) (s : State), s.reg rm % 2 = 1 →
    ∃ rinv r : Nat,
      (rinv < s.reg rm ∧ 2 ^ width Config.words * rinv % s.reg rm = 1 % s.reg rm) ∧
      r = s.reg ra * s.reg rb * rinv % s.reg rm ∧
      (∀ r' : Nat, r' < s.reg rm ∧ r' * 2 ^ width Config.words % s.reg rm = s.reg ra * s.reg rb % s.reg rm ↔ r' = r) ∧
      exec (.montmul rd ra rb rm) s = .next (s.completedWith rd r .zero)) ∧
  (∀ (rd ra rb rm : RegIdx) (s : State), s.reg rm = 0 →
    exec (.montmul rd ra rb rm) s = .next (s.failedWith .invalidModulus)) ∧
  (∀ (rd ra rb rm : RegIdx) (s : State), s.reg rm ≠ 0 → s.reg rm % 2 = 0 →
    exec (.montmul rd ra rb rm) s = .next (s.failedWith .evenModulus)) ∧
  (∀ rd ra rb rm : RegIdx, encode (.montmul rd ra rb rm) =
    BitVec.ofNat 32 (rm.val * 2 ^ 20 + rb.val * 2 ^ 16 + ra.val * 2 ^ 12 + rd.val * 2 ^ 8 + 0x04)) ∧
  ∀ c : Word, c.extractLsb' 0 8 = 0x04 → ((∃ why, decode c = .illegal why) ↔ c.extractLsb' 24 8 ≠ 0)

/-- R157: MONTR2 writes R² mod N for odd N; N = 0 fails with INVALID_MODULUS and other even N with EVEN_MODULUS; its word is
`RM<<20 | RD<<8 | 0x05`, illegal with RA ≠ 0, RB ≠ 0 or bits [31:24] ≠ 0. -/
def Obligations.Montr2WritesTheSquaredRadix : Prop :=
  (∀ (rd rm : RegIdx) (s : State), s.reg rm % 2 = 1 →
    exec (.montr2 rd rm) s = .next (s.completedWith rd (2 ^ (2 * width Config.words) % s.reg rm) .zero)) ∧
  (∀ (rd rm : RegIdx) (s : State), s.reg rm = 0 → exec (.montr2 rd rm) s = .next (s.failedWith .invalidModulus)) ∧
  (∀ (rd rm : RegIdx) (s : State), s.reg rm ≠ 0 → s.reg rm % 2 = 0 →
    exec (.montr2 rd rm) s = .next (s.failedWith .evenModulus)) ∧
  (∀ rd rm : RegIdx, encode (.montr2 rd rm) = BitVec.ofNat 32 (rm.val * 2 ^ 20 + rd.val * 2 ^ 8 + 0x05)) ∧
  ∀ c : Word, c.extractLsb' 0 8 = 0x05 →
    ((∃ why, decode c = .illegal why) ↔
      c.extractLsb' 12 4 ≠ 0 ∨ c.extractLsb' 16 4 ≠ 0 ∨ c.extractLsb' 24 8 ≠ 0)

/-- R158: the identities of the Montgomery product, for every radix 2^w and odd n; `rinv` is R⁻¹ modulo n (R155). -/
def Obligations.MontgomeryProductIdentities : Prop :=
  ∀ w a b n : Nat, n % 2 = 1 →
    montprod w a (radixSquare w n) n = a * 2 ^ w % n ∧
    (∀ rinv : Nat, rinv < n → 2 ^ w * rinv % n = 1 % n → montprod w a 1 n = a * rinv % n) ∧
    montprod w (montprod w a b n) (radixSquare w n) n = a * b % n ∧
    montprod w (a * 2 ^ w % n) (b * 2 ^ w % n) n = a * b * 2 ^ w % n ∧
    montprod w a b n = montprod w b a n ∧
    montprod w (2 ^ w % n) (2 ^ w % n) n = 2 ^ w % n

/-- R98: the commands of MODMUL, run one after the other, leave Xa·Xb mod Xm in Xd, for odd Xm and a scratch register different
from Xd and Xm, when Xd is not Xm, which the first MONTMUL would overwrite (a condition R98 does not list: DEDUCED, log entry
18). -/
def Obligations.ModmulComputesTheModularProduct : Prop :=
  ∀ (xd xa xb xm xt : RegIdx) (s : State), s.reg xm % 2 = 1 → xt ≠ xd → xt ≠ xm → xd ≠ xm →
    ∃ t u v : State, exec (.montmul xd xa xb xm) s = .next t ∧ exec (.montr2 xt xm) t = .next u ∧
      exec (.montmul xd xd xt xm) u = .next v ∧ modmul xd xa xb xm xt = [.montmul xd xa xb xm, .montr2 xt xm, .montmul xd xd xt xm] ∧
      v.reg xd = s.reg xa * s.reg xb % s.reg xm ∧ v.block.err = .ok

/-- R98: TOMONT leaves Xa·R mod Xm in Xd, for odd Xm and a scratch register different from Xa and Xm. -/
def Obligations.TomontEntersMontgomeryForm : Prop :=
  ∀ (xd xa xm xt : RegIdx) (s : State), s.reg xm % 2 = 1 → xt ≠ xa → xt ≠ xm →
    ∃ t u : State, tomont xd xa xm xt = [.montr2 xt xm, .montmul xd xa xt xm] ∧ exec (.montr2 xt xm) s = .next t ∧
      exec (.montmul xd xa xt xm) t = .next u ∧ u.reg xd = s.reg xa * 2 ^ width Config.words % s.reg xm ∧ u.block.err = .ok

/-! ### The reference procedures -/

/-- R145: the iterative form gives the value of the recursion for every a and odd n. -/
def Obligations.JacobiIterativeFormAgrees : Prop :=
  ∀ a n : Nat, n % 2 = 1 → jacobiIter a n = jacobi a n

/-- R159: for operands below an odd N, and a of at most w bits, the bit-serial loop gives the Montgomery product, and S is below
2·N before the first step and after every step, as the trace of section 2.4 of 95_test_vectors.md reads "throughout" (inside a
step, before the halving, the sum may be larger). -/
def Obligations.MontgomerySerialLoopAgrees : Prop :=
  ∀ w a b n : Nat, n % 2 = 1 → a < n → b < n → a < 2 ^ w →
    montSerial w a b n = montprod w a b n ∧ ∀ i, i ≤ w → addShift a b n i < 2 * n

/-- R161: 2·W modular doublings of 1 mod N give MONTR2's constant. -/
def Obligations.RadixSquareByDoublings : Prop :=
  ∀ w n : Nat, n ≠ 0 → doublings n (2 * w) (1 % n) = radixSquare w n

/-- R114: on operands of at most w bits the loop of R110 runs at most 2·w + 1 times. -/
def Obligations.EuclidStepsAreBounded : Prop :=
  ∀ w a b : Nat, a < 2 ^ w → b < 2 ^ w → euclidSteps a b ≤ 2 * w + 1

/-- R125: for an exponent of at most w bits, R121 makes one squaring per bit of the exponent and one multiplication per 1 bit,
at most 2·w in all. -/
def Obligations.ModexpWorkFollowsTheExponent : Prop :=
  ∀ w e : Nat, e < 2 ^ w →
    modexpWork e = (bitlen e, popcount w e) ∧ (modexpWork e).1 + (modexpWork e).2 ≤ 2 * w

/-- R151: for a modulus of at most w bits, R145 swaps at most 2·w + 1 times and takes at most (2·w + 1)·(w + 1) steps, halvings
and swaps counted. -/
def Obligations.JacobiWorkIsBounded : Prop :=
  ∀ w a n : Nat, n % 2 = 1 → n < 2 ^ w →
    (jacobiWork a n).1 ≤ 2 * w + 1 ∧ (jacobiWork a n).1 + (jacobiWork a n).2 ≤ (2 * w + 1) * (w + 1)

/-! ### What a command leaves unchanged, and its errors -/

/-- R42: every command completes in every state, and it leaves unchanged every register but its destination, CTRL.IE, WBUSY,
CMDREG, the turns and the read-data output, and every word of the window but STATUS and the destination's words. -/
def Obligations.EveryCommandCompletesWithinItsFrame : Prop :=
  ∀ (i : Instr) (s : State), ∃ t, exec i s = .next t ∧
    t.block.busy = false ∧ t.block.done = true ∧
    (∀ j, j ≠ i.dest → t.reg j = s.reg j) ∧
    t.block.ie = s.block.ie ∧ t.block.wbusy = s.block.wbusy ∧ t.block.cmdreg = s.block.cmdreg ∧
    t.turns = s.turns ∧ t.rdata = s.rdata ∧
    ∀ w : WordIdx, w ≠ 3 → (∀ k, busTarget Config.words w ≠ .operand i.dest k) →
      t.block.busRead Config.words w = s.block.busRead Config.words w

/-- R178: a failed command, of an illegal word too, has no partial effect: after its completion the block differs from the block
before its CMD write only in CMDREG, ERR, DONE and JSYM (cleared at accept). -/
def Obligations.FailedCommandHasNoPartialEffect : Prop :=
  ∀ (s t : State) (d : Word), s.block.busy = false →
    runSteps 2 { s with turns := [.port (.busWrite 4 d), .port .complete] } = .next t → t.block.err ≠ .ok →
    t.block = { s.block with cmdreg := d, err := t.block.err, done := true, jsym := .zero }

/-- R177: completion with an error writes ERR, JSYM, BUSY and DONE and nothing else; with IE = 1 irq rises. -/
def Obligations.ErrorCompletionWritesOnlyStatus : Prop :=
  ∀ (b : Block) (e : ErrCode),
    b.takeError e = { b with err := e, jsym := .zero, busy := false, done := true } ∧
    (b.ie = true → (b.takeError e).irq = true)

/-- R171 to R176: the codes, and the error of a completed command: decode before modulus zero before modulus parity. -/
def Obligations.ErrorCodeFollowsThePriority : Prop :=
  (ErrCode.ok.code = 0 ∧ ErrCode.illegalCmd.code = 1 ∧ ErrCode.invalidModulus.code = 2 ∧ ErrCode.evenModulus.code = 3 ∧
    ErrCode.jacobiDomain.code = 4) ∧
  ∀ s : State, s.nextKind Config.base = .ok .complete → s.block.busy = true →
    ∃ t, step s = .next t ∧
      t.block.err =
        match decode s.block.cmdreg with
        | .illegal _ => .illegalCmd
        | .cmd (.gcd _ _ _) => .ok
        | .cmd (.modexp _ _ _ rm) => if s.reg rm = 0 then .invalidModulus else .ok
        | .cmd (.jacobi _ _ rn) => if s.reg rn % 2 = 0 then .jacobiDomain else .ok
        | .cmd (.montmul _ _ _ rm) =>
          if s.reg rm = 0 then .invalidModulus else if s.reg rm % 2 = 0 then .evenModulus else .ok
        | .cmd (.montr2 _ rm) =>
          if s.reg rm = 0 then .invalidModulus else if s.reg rm % 2 = 0 then .evenModulus else .ok

/-- R172: an illegal word is accepted when idle as any word is, and completes with ILLEGAL_CMD; no operand register changes. -/
def Obligations.IllegalWordCompletesWithIllegalCmd : Prop :=
  ∀ (s : State) (d : Word) (why : Illegal), s.block.busy = false → decode d = .illegal why →
    (∃ t, step (s.withTurn (.busWrite 4 d)) = .next t ∧ t.block.busy = true) ∧
    ∃ u, runSteps 2 { s with turns := [.port (.busWrite 4 d), .port .complete] } = .next u ∧
      u.block.err.code = 1 ∧ u.block.done = true ∧ u.block.busy = false ∧ ∀ i, u.reg i = s.reg i

/-- R22: at every width, a command's result is below 2^W when the registers are, so nothing overflows. -/
def Obligations.ResultsNeverExceedTheWidth : Prop :=
  ∀ (words : Nat) (i : Instr) (s t : State), s.block.inRange words → execAt words i s = .next t → t.block.inRange words

/-- R9: a command's result is a function of the command word, the values of the registers it names and W, and of nothing
else. -/
def Obligations.ResultDependsOnNamedRegistersOnly : Prop :=
  ∀ (i : Instr) (s s' : State), s.block.agreeOn s'.block i.sources →
    ∃ t t' : State, exec i s = .next t ∧ exec i s' = .next t' ∧ t.block.err = t'.block.err ∧ t.block.jsym = t'.block.jsym ∧
      (t.block.err = .ok → t.reg i.dest = t'.reg i.dest)

/-! ### The bus window -/

/-- R67: what a read returns at every word index, and that a read changes nothing: ID, PARAM, CTRL, STATUS, CMD, the operand
words, and 0 elsewhere. -/
def Obligations.BusReadReturnsTheWindow : Prop :=
  ∀ s : State,
    s.block.busRead Config.words 0 = 0x4D5A4901 ∧
    (s.block.busRead Config.words 1).toNat = 16 * 2 ^ 16 + Config.words ∧
    s.block.busRead Config.words 2 = (if s.block.ie then 1 else 0) ∧
    s.block.busRead Config.words 3 = s.block.statusWord ∧
    s.block.busRead Config.words 4 = s.block.cmdreg ∧
    (∀ (i : RegIdx) (k : Nat), k < Config.words →
      s.block.busRead Config.words (BitVec.ofNat 13 (0x1000 + 0x100 * i.val + k)) =
        BitVec.ofNat 32 (s.reg i / 2 ^ (32 * k))) ∧
    (∀ w : WordIdx, 5 ≤ w.toNat →
      (w.toNat < 0x1000 ∨ Config.words ≤ w.toNat % 0x100) → s.block.busRead Config.words w = 0) ∧
    ∀ w : WordIdx, ∃ t, step (s.withTurn (.busRead w)) = .next t ∧ t.rdata = s.block.busRead Config.words w ∧ t.block = s.block

/-- R27: the layout of STATUS, bit fields and reserved zeros, and its write: bit 1 clears DONE, bit 8 clears WBUSY, every other
bit is ignored, in every state; a read changes nothing but the value returned; the word is 0 after reset.
R32: the codes of JSYM are 0b00, 0b01 and 0b11. -/
def Obligations.StatusLayoutAndWriteOneToClear : Prop :=
  Block.reset.busRead Config.words 3 = 0 ∧
  (JSym.zero.code = 0b00 ∧ JSym.plusOne.code = 0b01 ∧ JSym.minusOne.code = 0b11) ∧
  (∀ s : State, ∃ t, step (s.withTurn (.busRead 3)) = .next t ∧ t.block = s.block) ∧
  ∀ b : Block,
    (b.busRead Config.words 3).toNat =
      b.busy.toNat + 2 * b.done.toNat + 2 ^ 4 * b.err.code.toNat + 2 ^ 8 * b.wbusy.toNat + 2 ^ 12 * b.jsym.code.toNat ∧
    ∀ d : Word, b.busWrite Config.words 3 d =
      { b with done := if d[1] then false else b.done, wbusy := if d[8] then false else b.wbusy }

/-- R26: a write to CTRL in any state, busy or not: bit 31 resets the whole block whatever the other bits are, otherwise IE takes
bit 0; a read returns IE and zeros; IE is 0 after reset. -/
def Obligations.CtrlWriteSetsEnableOrResets : Prop :=
  Block.reset.ie = false ∧
  ∀ (b : Block) (d : Word),
    b.busWrite Config.words 2 d = (if d[31] then Block.reset else { b with ie := d[0] }) ∧
    (b.busRead Config.words 2).toNat = b.ie.toNat

/-- R33: a write to CMD when idle accepts every word, in one step, and an illegal one completes with ILLEGAL_CMD; when busy it
changes nothing but WBUSY; a read returns the last accepted word, 0 after reset, and changes nothing. -/
def Obligations.CmdWriteAcceptsWhenIdle : Prop :=
  Block.reset.cmdreg = 0 ∧
  ∀ (s : State) (d : Word),
    (s.block.busy = false →
      s.block.busWrite Config.words 4 d =
        { s.block with cmdreg := d, busy := true, done := false, err := .ok, jsym := .zero }) ∧
    (∀ why, s.block.busy = false → decode d = .illegal why →
      ∃ t, runSteps 2 { s with turns := [.port (.busWrite 4 d), .port .complete] } = .next t ∧ t.block.err = .illegalCmd) ∧
    (s.block.busy = true → s.block.busWrite Config.words 4 d = { s.block with wbusy := true }) ∧
    ∃ t, step (s.withTurn (.busRead 4)) = .next t ∧ t.rdata = s.block.cmdreg ∧ t.block = s.block

/-- R69: an operand write when idle replaces bits 32k+31 to 32k of its register by the word written and leaves every other bit,
every other register and every other field as it was. -/
def Obligations.OperandWriteReplacesOneWord : Prop :=
  ∀ (b : Block) (i : RegIdx) (k : Nat) (d : Word), b.busy = false → k < Config.words →
    (∀ n : Nat, ((b.busWrite Config.words (operandIdx i k) d).reg i).testBit n =
      if 32 * k ≤ n ∧ n < 32 * k + 32 then d.getLsbD (n - 32 * k) else (b.reg i).testBit n) ∧
    b.busWrite Config.words (operandIdx i k) d =
      { b with x := b.x.set i ((b.busWrite Config.words (operandIdx i k) d).reg i) }

/-- R69, R61, R62: after an operand write when idle, reading that word returns what was written and every other word of the
window reads as before. -/
def Obligations.OperandWordReadsBackAlone : Prop :=
  ∀ (b : Block) (i : RegIdx) (k : Nat) (d : Word), b.busy = false → k < Config.words →
    (b.busWrite Config.words (operandIdx i k) d).busRead Config.words (operandIdx i k) = d ∧
    ∀ w : WordIdx, w ≠ operandIdx i k →
      (b.busWrite Config.words (operandIdx i k) d).busRead Config.words w = b.busRead Config.words w

/-- R70: while BUSY = 1 a write to CMD or to a mapped operand word changes nothing but WBUSY, which becomes 1; CTRL and STATUS
writes are not affected. -/
def Obligations.WritesWhileBusyAreDiscarded : Prop :=
  ∀ (b : Block) (d : Word), b.busy = true →
    b.busWrite Config.words 4 d = { b with wbusy := true } ∧
    (∀ (i : RegIdx) (k : Nat), k < Config.words →
      b.busWrite Config.words (operandIdx i k) d = { b with wbusy := true }) ∧
    b.busWrite Config.words 2 d = (if d[31] then Block.reset else { b with ie := d[0] }) ∧
    b.busWrite Config.words 3 d =
      { b with done := if d[1] then false else b.done, wbusy := if d[8] then false else b.wbusy }

/-- R63: a reserved word (offsets 0x0014 to 0x3FFC, and the words k ≥ WORDS of each operand slot) reads as 0 and ignores writes,
in every state, WBUSY included. R24, R25: ID and PARAM read their constants in every state, and a write to either changes
nothing of the block. -/
def Obligations.ReservedWordsReadZeroIgnoreWrites : Prop :=
  (∀ (b : Block) (w : WordIdx) (d : Word),
    ((0x0014 ≤ 4 * w.toNat ∧ 4 * w.toNat ≤ 0x3FFC) ∨
      ∃ (i : RegIdx) (k : Nat), Config.words ≤ k ∧ k ≤ 255 ∧ 4 * w.toNat = 0x4000 + 0x400 * i.val + 4 * k) →
    b.busRead Config.words w = 0 ∧ b.busWrite Config.words w d = b) ∧
  ∀ (b : Block) (d : Word),
    b.busRead Config.words 0 = 0x4D5A4901 ∧ b.busWrite Config.words 0 d = b ∧
    (b.busRead Config.words 1).toNat = 16 * 2 ^ 16 + Config.words ∧ b.busWrite Config.words 1 d = b

/-- R64: a register's value is the sum of its words times 2^(32k), word 0 the least significant. -/
def Obligations.RegisterIsTheSumOfItsWords : Prop :=
  ∀ (b : Block) (i : RegIdx), b.reg i < 2 ^ width Config.words →
    b.reg i = ((List.range Config.words).map fun k => (b.busRead Config.words (operandIdx i k)).toNat * 2 ^ (32 * k)).sum

/-- R97: the accesses of `LDX Xi, v` on an idle block, run to their end, make the whole register v and change nothing else of
the block. (Then no turn is left and the read-data output is 0: log entries 5 and 7, the model's own fields.) -/
def Obligations.LoadMacroSetsTheWholeRegister : Prop :=
  ∀ (s : State) (i : RegIdx) (v : Nat), s.block.busy = false → s.reg i < 2 ^ width Config.words → v < 2 ^ width Config.words →
    runSteps Config.words { s with turns := loadX Config.words i v } =
      .next { s with block := s.block.setReg i v, turns := [], rdata := 0 }

/-- R65, R66: a bridged write of four bytes at an aligned address of the window, up to offset 0x7FFC, is the bus write of the
word with those byte lanes, and a bridged read of four bytes is the bus read; a misaligned or narrower or wider access that
starts inside the window is refused with the bridge's bus error. An access that starts below BASE, or at offset 0x8000 or
above, is outside the window. That the model stops on both, each with a fault of its own, is DESIGN CHOICE, log entry 9. -/
def Obligations.BridgeCarriesAlignedWordsOnly : Prop :=
  ∀ (s : State) (w : WordIdx) (b0 b1 b2 b3 : Byte),
    step { s with turns := .bridgeWrite (Config.base + 4 * w.toNat) [b0, b1, b2, b3] :: s.turns } =
      step (s.withTurn (.busWrite w (b3 ++ b2 ++ b1 ++ b0))) ∧
    step { s with turns := .bridgeRead (Config.base + 4 * w.toNat) 4 :: s.turns } = step (s.withTurn (.busRead w)) ∧
    (∀ (off : Nat) (bytes : List Byte), off < 0x8000 → (off % 4 ≠ 0 ∨ bytes.length ≠ 4) →
      step { s with turns := .bridgeWrite (Config.base + off) bytes :: s.turns } = .fault .bridgeBusError ∧
      step { s with turns := .bridgeRead (Config.base + off) bytes.length :: s.turns } = .fault .bridgeBusError) ∧
    ∀ (addr len : Nat) (bytes : List Byte), (addr < Config.base ∨ Config.base + 0x8000 ≤ addr) →
      step { s with turns := .bridgeWrite addr bytes :: s.turns } = .fault .outsideWindow ∧
      step { s with turns := .bridgeRead addr len :: s.turns } = .fault .outsideWindow

/-! ### The status fields and the interrupt over a step -/

/-- R41: while BUSY = 1 no operand register changes by any step but the completion and a reset, and the command in flight stays
in CMDREG and stays in flight. -/
def Obligations.BusyFreezesTheOperands : Prop :=
  ∀ (s t : State) (k : StepKind), s.block.busy = true → s.nextKind Config.base = .ok k → step s = .next t →
    k ≠ .complete → k.resets Config.words = false →
    t.block.x = s.block.x ∧ t.block.cmdreg = s.block.cmdreg ∧ t.block.busy = true

/-- R28: BUSY is set only by an accepted CMD write and cleared only by completion or reset. -/
def Obligations.BusyIsSetByAcceptClearedByCompletion : Prop :=
  ∀ (s t : State) (k : StepKind), s.nextKind Config.base = .ok k → step s = .next t →
    (s.block.busy = false → (t.block.busy = true ↔ ∃ d, k = .busWrite 4 d)) ∧
    (s.block.busy = true → (t.block.busy = false ↔ k = .complete ∨ k.resets Config.words = true))

/-- R29: DONE is set by every completion and by nothing else; it is cleared by a write of 1 to STATUS bit 1, by an accept, and by
reset; it is never 1 while BUSY = 1 once that holds. -/
def Obligations.DoneIsSetByEveryCompletion : Prop :=
  ∀ (s t : State) (k : StepKind), s.nextKind Config.base = .ok k → step s = .next t →
    (s.block.done = false → (t.block.done = true ↔ k = .complete ∧ s.block.busy = true)) ∧
    (s.block.done = true → (t.block.done = false ↔
      (∃ d : Word, k = .busWrite 3 d ∧ d[1] = true) ∨ (s.block.busy = false ∧ ∃ d, k = .busWrite 4 d) ∨
      k.resets Config.words = true)) ∧
    (¬(s.block.busy = true ∧ s.block.done = true) → ¬(t.block.busy = true ∧ t.block.done = true))

/-- R31: WBUSY is set by a write to CMD or to a mapped operand word while BUSY = 1, and cleared only by a write of 1 to STATUS bit
8 and by reset; an accept does not clear it. -/
def Obligations.WbusyIsSticky : Prop :=
  ∀ (s t : State) (k : StepKind), s.nextKind Config.base = .ok k → step s = .next t →
    (s.block.wbusy = false → (t.block.wbusy = true ↔
      s.block.busy = true ∧ ∃ w d, k = .busWrite w d ∧
        (w = 4 ∨ ∃ i n, busTarget Config.words w = .operand i n))) ∧
    (s.block.wbusy = true → (t.block.wbusy = false ↔
      (∃ d : Word, k = .busWrite 3 d ∧ d[8] = true) ∨ k.resets Config.words = true))

/-- R30, R32, R34: ERR and JSYM change only at an accept, at a completion and at a reset, so neither a discarded CMD write nor
the engine's turn while idle changes them; an accept clears both, and only the completion of a JACOBI command leaves JSYM other
than 0b00. (That the engine's turn may come while idle is log entry 6.) -/
def Obligations.ErrAndJsymChangeOnlyWithCommands : Prop :=
  ∀ (s t : State) (k : StepKind), s.nextKind Config.base = .ok k → step s = .next t →
    ((s.block.busy = true → k ≠ .complete) → (s.block.busy = false → ∀ d, k ≠ .busWrite 4 d) →
      k.resets Config.words = false → t.block.err = s.block.err ∧ t.block.jsym = s.block.jsym) ∧
    (s.block.busy = false → (∃ d, k = .busWrite 4 d) → t.block.err = .ok ∧ t.block.jsym = .zero) ∧
    (k = .complete → s.block.busy = true → t.block.jsym ≠ .zero →
      t.block.err = .ok ∧ ∃ rd ra rn, decode s.block.cmdreg = .cmd (.jacobi rd ra rn))

/-- R38: the interrupt output is IE and DONE. -/
def Obligations.InterruptIsEnableAndDone : Prop :=
  ∀ b : Block, b.irq = true ↔ b.ie = true ∧ b.done = true

/-- R41, R70: a write to CMD or to a mapped operand word that arrives before the completion is lost and sets WBUSY, and the
command completes exactly as it would have without it. -/
def Obligations.DiscardedWriteDoesNotDisturbTheCommand : Prop :=
  ∀ (s : State) (w : WordIdx) (d : Word), s.block.busy = true →
    (w = 4 ∨ ∃ i n, busTarget Config.words w = .operand i n) →
    ∃ t u, runSteps 2 { s with turns := [.port (.busWrite w d), .port .complete] } = .next t ∧
      runSteps 1 { s with turns := [.port .complete] } = .next u ∧ t.block = { u.block with wbusy := true }

/-- R33, R42, R210: a command written to CMD of an idle block completes however often the host polls STATUS first, and the end is
the same: `exec` of the command on the operands it was accepted with. (WAIT as a given number of polls, the order of the turns
and the state's turns and read-data output at the end are the model's: log entries 5, 7 and 19.) -/
def Obligations.CommandCompletesAfterAnyPolling : Prop :=
  ∀ (s : State) (i : Instr) (polls : Nat), s.block.busy = false →
    runSteps (polls + 2)
        { s with turns := .port (.busWrite 4 (encode i)) :: (List.replicate polls (.port (.busRead 3)) ++ [.port .complete]) } =
      exec i { block := s.block.inFlight (encode i), turns := [], rdata := 0 }

/-- R210, R211: every command terminates: from any busy block whose host's turns are all at the port, some number of steps no
greater than those turns and one more leads to BUSY = 0, by the completion or by a reset among the turns. That the engine's
turn follows the finite list of turns is R210's fairness made data: DESIGN CHOICE, log entry 5. -/
def Obligations.EveryCommandTerminates : Prop :=
  ∀ s : State, s.block.busy = true → s.portOnly →
    ∃ n t, n ≤ s.turns.length + 1 ∧ runSteps n s = .next t ∧ t.block.busy = false

/-- Log entry 1: `exec` is the parametric meaning at the open width, so what is shown at every width holds of the machine. -/
def Obligations.OpenWidthIsOneOfTheWidths : Prop :=
  (1 ≤ Config.words ∧ Config.words ≤ 256 ∧ 32 ≤ width Config.words ∧ width Config.words ≤ 8192 ∧
    width Config.words % 32 = 0 ∧ Config.base % 0x8000 = 0) ∧
  (∀ (i : Instr) (s : State), exec i s = execAt Config.words i s) ∧
  ∀ s : State, step s = stepAt Config.words Config.base s
end

