-- ==== Sys2Proof/Laws/Arith.lean ====
section
/-! SUPPORT. What the arithmetic of the four units computes: one lemma per function, which callers cite instead of unfolding
its loop. -/

namespace Sys2Proof.Machine

/-! ### GCD -/

/-- With enough iterations the remainder loop gives the greatest common divisor. -/
theorem euclidLoop_eq_gcd (n u v : Nat) (h : v < n) : euclidLoop n u v = Nat.gcd u v := by
  induction n generalizing u v with
  | zero => omega
  | succ n ih =>
    unfold euclidLoop
    split
    · next hv => simp [hv]
    · next hv =>
      rw [ih v (u % v) (by have := Nat.mod_lt u (Nat.pos_of_ne_zero hv); omega), Nat.gcd_comm u v, Nat.gcd_rec v u,
        Nat.gcd_comm]

/-- R110: the loop's value is the greatest common divisor. -/
theorem euclid_eq_gcd (a b : Nat) : euclid a b = Nat.gcd a b := euclidLoop_eq_gcd _ _ _ (Nat.lt_succ_self b)

/-! ### MODEXP -/

/-- After the bits above i, the accumulator is the power by those bits; the loop adds the bits below i. -/
theorem modexpLoop_eq (b e n i r : Nat) (hr : r = b ^ (e / 2 ^ i) % n) : modexpLoop b e n i r = b ^ e % n := by
  induction i generalizing r with
  | zero => simpa [modexpLoop] using hr
  | succ i ih =>
    unfold modexpLoop
    apply ih
    have hsq : r * r % n = b ^ (2 * (e / 2 ^ (i + 1))) % n := by
      rw [hr, ← Nat.mul_mod, ← pow_add, two_mul]
    have hdiv : e / 2 ^ (i + 1) = e / 2 ^ i / 2 := by rw [pow_succ, Nat.div_div_eq_div_mul]
    have hbit : e.testBit i = decide (e / 2 ^ i % 2 = 1) := Nat.testBit_eq_decide_div_mod_eq
    rw [hdiv] at hsq
    by_cases h : e / 2 ^ i % 2 = 1
    · have hone : 2 * (e / 2 ^ i / 2) + 1 = e / 2 ^ i := by omega
      rw [hbit, if_pos (by simpa using h), hsq, Nat.mod_mul_mod, ← pow_succ, hone]
    · have hzero : 2 * (e / 2 ^ i / 2) = e / 2 ^ i := by omega
      rw [hbit, if_neg (by simpa using h), hsq, hzero]

/-- R120: the reference procedure's value is the power modulo n. -/
theorem modexp_eq_pow_mod (base exp n : Nat) : modexp base exp n = base ^ exp % n := by
  have hlt : exp < 2 ^ bitlen exp := by
    unfold bitlen
    split
    · next h => simp [h]
    · exact Nat.lt_log2_self
  rw [modexp, modexpLoop_eq _ _ _ _ _ (by rw [Nat.div_eq_of_lt hlt, pow_zero]), ← Nat.pow_mod]

/-! ### The Montgomery radix -/

/-- Halving stays below an odd modulus, and doubling undoes it. -/
theorem halveMod_spec {n x : Nat} (hn : n % 2 = 1) (hx : x < n) :
    halveMod n x < n ∧ (halveMod n x * 2) % n = x := by
  unfold halveMod
  split
  · exact ⟨by omega, by rw [show x / 2 * 2 = x by omega, Nat.mod_eq_of_lt hx]⟩
  · exact ⟨by omega, by rw [show (x + n) / 2 * 2 = x + n by omega, Nat.add_mod_right, Nat.mod_eq_of_lt hx]⟩

/-- k halvings stay below an odd modulus, and k doublings undo them. -/
theorem halvings_spec {n : Nat} (hn : n % 2 = 1) (k x : Nat) (hx : x < n) :
    halvings n k x < n ∧ (halvings n k x * 2 ^ k) % n = x := by
  induction k generalizing x with
  | zero => exact ⟨hx, by simp [halvings, Nat.mod_eq_of_lt hx]⟩
  | succ k ih =>
    obtain ⟨hlt, heq⟩ := halveMod_spec hn hx
    obtain ⟨hlt', heq'⟩ := ih _ hlt
    refine ⟨hlt', ?_⟩
    rw [halvings, pow_succ, ← mul_assoc, ← Nat.mod_mul_mod, heq', heq]

/-- R155: for an odd n, `radixInv` is a number below n whose product with 2^w is 1 modulo n. -/
theorem radixInv_spec {n : Nat} (hn : n % 2 = 1) (w : Nat) :
    radixInv w n < n ∧ (radixInv w n * 2 ^ w) % n = 1 % n :=
  halvings_spec hn w (1 % n) (Nat.mod_lt _ (by omega))

/-- R155: the Montgomery product is the number below n whose product with 2^w is a · b modulo n. -/
theorem montprod_spec {n : Nat} (hn : n % 2 = 1) (w a b : Nat) :
    montprod w a b n < n ∧ (montprod w a b n * 2 ^ w) % n = a * b % n := by
  refine ⟨Nat.mod_lt _ (by omega), ?_⟩
  rw [montprod, Nat.mod_mul_mod, mul_assoc, ← Nat.mul_mod_mod, (radixInv_spec hn w).2, Nat.mul_mod_mod, mul_one]

/-! ### The Jacobi symbol -/

/-- Case 4 is the symbol at 2. -/
theorem jacobiTwo_eq {n : Nat} (hn : n % 2 = 1) : jacobiTwo n = jacobiSym 2 n := by
  rw [jacobiSym.at_two (Nat.odd_iff.mpr hn), ZMod.χ₈_nat_eq_if_mod_eight]
  unfold jacobiTwo
  have : n % 2 ≠ 0 := by omega
  simp [this]

/-- Case 7 is quadratic reciprocity. -/
theorem jacobiSym_swap {a n : Nat} (ha : a % 2 = 1) (hn : n % 2 = 1) :
    jacobiSym a n = if a % 4 = 3 ∧ n % 4 = 3 then -jacobiSym n a else jacobiSym n a := by
  split
  · next h => exact jacobiSym.quadratic_reciprocity_three_mod_four h.1 h.2
  · next h =>
    by_cases h1 : a % 4 = 1
    · exact jacobiSym.quadratic_reciprocity_one_mod_four h1 (Nat.odd_iff.mpr hn)
    · exact jacobiSym.quadratic_reciprocity_one_mod_four' (Nat.odd_iff.mpr ha) (by omega)

/-- With enough depth the recursion of R143 gives the Jacobi symbol. -/
theorem jacobiRec_eq (f a n : Nat) (hn : n % 2 = 1) (h : 2 * (a + n) + (if a < n then 1 else 0) < f) :
    jacobiRec f a n = jacobiSym a n := by
  induction f generalizing a n with
  | zero => omega
  | succ f ih =>
    unfold jacobiRec
    split
    · next ha =>
      subst ha
      split
      · next h1 => subst h1; simp
      · next h1 => rw [Nat.cast_zero, jacobiSym.zero_left (by omega)]
    split
    · next ha => subst ha; simp
    split
    · next ha => subst ha; exact_mod_cast jacobiTwo_eq hn
    split
    · next hge =>
      have hlt : a % n < n := Nat.mod_lt a (by omega)
      have hle : a % n + n ≤ a := by
        have h1 := Nat.div_add_mod a n
        have h2 : 1 ≤ a / n := (Nat.one_le_div_iff (by omega)).mpr hge
        nlinarith
      rw [ih (a % n) n hn (by rw [if_pos hlt]; omega), jacobiSym.mod_left (a : ℤ) n, Int.natCast_mod]
    split
    · next hge heven =>
      have hhalf : (a : ℤ) = 2 * ((a / 2 : ℕ) : ℤ) := by omega
      rw [ih (a / 2) n hn (by split <;> split at h <;> omega), jacobiTwo_eq hn, ← jacobiSym.mul_left, ← hhalf]
    · next hge hodd =>
      have hswap := jacobiSym_swap (a := a) (n := n) (by omega) hn
      have hfuel : 2 * (n + a) + (if n < a then 1 else 0) < f := by
        rw [if_pos (by omega)] at h
        rw [if_neg (by omega)]
        omega
      rw [ih n a (by omega) hfuel, hswap]

/-- For an odd n, `jacobi` is the Jacobi symbol (R149). -/
theorem jacobi_eq_jacobiSym {n : Nat} (hn : n % 2 = 1) (a : Nat) : jacobi a n = jacobiSym a n :=
  jacobiRec_eq _ _ _ hn (by split <;> omega)

end Sys2Proof.Machine
end

