-- ==== Sys2Proof/Laws/Decode.lean ====
section
/-! SUPPORT. Cutting fields out of a word and packing them into one are inverse to each other, by numbers. -/

namespace Sys2Proof

@[simp] theorem regOf_val (v : BitVec 4) : (regOf v).val = v.toNat := rfl

/-- A field of a word as a number: bits `lo` to `lo + n - 1`. -/
theorem extract_toNat (c : Word) (lo n : Nat) : (c.extractLsb' lo n).toNat = c.toNat / 2 ^ lo % 2 ^ n := by
  rw [BitVec.extractLsb'_toNat, Nat.shiftRight_eq_div_pow]

/-- R90's sum, without a remainder. -/
theorem packFields_toNat (f : Fields) :
    (packFields f).toNat = f.zero.toNat * 2 ^ 24 + f.rm.val * 2 ^ 20 + f.rb.val * 2 ^ 16 + f.ra.val * 2 ^ 12 +
      f.rd.val * 2 ^ 8 + f.op.toNat := by
  have h1 := f.op.isLt
  have h2 := f.zero.isLt
  have h3 := f.rd.isLt
  have h4 := f.ra.isLt
  have h5 := f.rb.isLt
  have h6 := f.rm.isLt
  rw [packFields, BitVec.toNat_ofNat, Nat.mod_eq_of_lt]
  omega

/-- The digits of R90's sum. -/
theorem fields_of_sum (c op rd ra rb rm z : Nat) (h1 : op < 256) (h2 : rd < 16) (h3 : ra < 16) (h4 : rb < 16)
    (h5 : rm < 16) (hc : c = z * 2 ^ 24 + rm * 2 ^ 20 + rb * 2 ^ 16 + ra * 2 ^ 12 + rd * 2 ^ 8 + op) :
    c / 2 ^ 0 % 2 ^ 8 = op ∧ c / 2 ^ 8 % 2 ^ 4 = rd ∧ c / 2 ^ 12 % 2 ^ 4 = ra ∧ c / 2 ^ 16 % 2 ^ 4 = rb ∧
      c / 2 ^ 20 % 2 ^ 4 = rm ∧ c / 2 ^ 24 = z := by
  omega

/-- The fields of a packed word are the fields packed. -/
theorem cutFields_packFields (f : Fields) : cutFields (packFields f) = f := by
  obtain ⟨e0, e1, e2, e3, e4, e5⟩ := fields_of_sum _ _ _ _ _ _ _ f.op.isLt f.rd.isLt f.ra.isLt f.rb.isLt f.rm.isLt
    (packFields_toNat f)
  have hop : (cutFields (packFields f)).op = f.op := BitVec.eq_of_toNat_eq ((extract_toNat _ 0 8).trans e0)
  have hrd : (cutFields (packFields f)).rd = f.rd := Fin.ext ((regOf_val _).trans ((extract_toNat _ 8 4).trans e1))
  have hra : (cutFields (packFields f)).ra = f.ra := Fin.ext ((regOf_val _).trans ((extract_toNat _ 12 4).trans e2))
  have hrb : (cutFields (packFields f)).rb = f.rb := Fin.ext ((regOf_val _).trans ((extract_toNat _ 16 4).trans e3))
  have hrm : (cutFields (packFields f)).rm = f.rm := Fin.ext ((regOf_val _).trans ((extract_toNat _ 20 4).trans e4))
  have hz : (cutFields (packFields f)).zero = f.zero :=
    BitVec.eq_of_toNat_eq ((extract_toNat _ 24 8).trans (by rw [e5, Nat.mod_eq_of_lt f.zero.isLt]))
  generalize cutFields (packFields f) = g at *
  cases f
  cases g
  simp_all

/-- A word packed from its own fields is the word: no bit of it is outside them. -/
theorem packFields_cutFields (c : Word) : packFields (cutFields c) = c := by
  have h1 := c.isLt
  apply BitVec.eq_of_toNat_eq
  rw [packFields_toNat]
  simp only [cutFields, regOf_val, extract_toNat]
  omega

end Sys2Proof
end

