-- ==== Sys2Proof/Laws/State.lean ====
section
/-! SUPPORT. One lemma per field and update of the state, so that no later proof unfolds a record update. -/

namespace Sys2Proof.Machine

/-! ### Reset -/

@[simp] theorem reg_reset (i : RegIdx) : Block.reset.reg i = 0 := by simp [Block.reset, Block.reg]
@[simp] theorem reset_ie : Block.reset.ie = false := rfl
@[simp] theorem reset_busy : Block.reset.busy = false := rfl
@[simp] theorem reset_done : Block.reset.done = false := rfl
@[simp] theorem reset_err : Block.reset.err = .ok := rfl
@[simp] theorem reset_wbusy : Block.reset.wbusy = false := rfl
@[simp] theorem reset_jsym : Block.reset.jsym = .zero := rfl
@[simp] theorem reset_cmdreg : Block.reset.cmdreg = 0 := rfl
@[simp] theorem stateReset_block : State.reset.block = Block.reset := rfl
@[simp] theorem stateReset_turns : State.reset.turns = [] := rfl
@[simp] theorem stateReset_rdata : State.reset.rdata = 0 := rfl

/-! ### Writing a register -/

theorem reg_setReg (b : Block) (i j : RegIdx) (v : Nat) :
    (b.setReg i v).reg j = if i = j then v else b.reg j := by
  simp [Block.setReg, Block.reg, Vector.getElem_set, Fin.ext_iff]

@[simp] theorem reg_setReg_self (b : Block) (i : RegIdx) (v : Nat) : (b.setReg i v).reg i = v := by
  simp [reg_setReg]

theorem reg_setReg_of_ne {i j : RegIdx} (h : i ≠ j) (b : Block) (v : Nat) : (b.setReg i v).reg j = b.reg j := by
  simp [reg_setReg, h]

@[simp] theorem setReg_ie (b : Block) (i v) : (b.setReg i v).ie = b.ie := rfl
@[simp] theorem setReg_busy (b : Block) (i v) : (b.setReg i v).busy = b.busy := rfl
@[simp] theorem setReg_done (b : Block) (i v) : (b.setReg i v).done = b.done := rfl
@[simp] theorem setReg_err (b : Block) (i v) : (b.setReg i v).err = b.err := rfl
@[simp] theorem setReg_wbusy (b : Block) (i v) : (b.setReg i v).wbusy = b.wbusy := rfl
@[simp] theorem setReg_jsym (b : Block) (i v) : (b.setReg i v).jsym = b.jsym := rfl
@[simp] theorem setReg_cmdreg (b : Block) (i v) : (b.setReg i v).cmdreg = b.cmdreg := rfl

/-! ### Finishing a command -/

@[simp] theorem finish_x (b : Block) (e j) : (b.finish e j).x = b.x := rfl
@[simp] theorem reg_finish (b : Block) (e j) (i : RegIdx) : (b.finish e j).reg i = b.reg i := rfl
@[simp] theorem finish_ie (b : Block) (e j) : (b.finish e j).ie = b.ie := rfl
@[simp] theorem finish_busy (b : Block) (e j) : (b.finish e j).busy = false := rfl
@[simp] theorem finish_done (b : Block) (e j) : (b.finish e j).done = true := rfl
@[simp] theorem finish_err (b : Block) (e j) : (b.finish e j).err = e := rfl
@[simp] theorem finish_wbusy (b : Block) (e j) : (b.finish e j).wbusy = b.wbusy := rfl
@[simp] theorem finish_jsym (b : Block) (e j) : (b.finish e j).jsym = j := rfl
@[simp] theorem finish_cmdreg (b : Block) (e j) : (b.finish e j).cmdreg = b.cmdreg := rfl

@[simp] theorem takeError_x (b : Block) (e) : (b.takeError e).x = b.x := rfl
@[simp] theorem reg_takeError (b : Block) (e) (i : RegIdx) : (b.takeError e).reg i = b.reg i := rfl
@[simp] theorem takeError_ie (b : Block) (e) : (b.takeError e).ie = b.ie := rfl
@[simp] theorem takeError_busy (b : Block) (e) : (b.takeError e).busy = false := rfl
@[simp] theorem takeError_done (b : Block) (e) : (b.takeError e).done = true := rfl
@[simp] theorem takeError_err (b : Block) (e) : (b.takeError e).err = e := rfl
@[simp] theorem takeError_wbusy (b : Block) (e) : (b.takeError e).wbusy = b.wbusy := rfl
@[simp] theorem takeError_jsym (b : Block) (e) : (b.takeError e).jsym = .zero := rfl
@[simp] theorem takeError_cmdreg (b : Block) (e) : (b.takeError e).cmdreg = b.cmdreg := rfl

@[simp] theorem complete_ie (b : Block) (rd) (o : CmdOutcome) : (b.complete rd o).ie = b.ie := by cases o <;> rfl
@[simp] theorem complete_busy (b : Block) (rd) (o : CmdOutcome) : (b.complete rd o).busy = false := by cases o <;> rfl
@[simp] theorem complete_done (b : Block) (rd) (o : CmdOutcome) : (b.complete rd o).done = true := by cases o <;> rfl
@[simp] theorem complete_wbusy (b : Block) (rd) (o : CmdOutcome) : (b.complete rd o).wbusy = b.wbusy := by cases o <;> rfl
@[simp] theorem complete_cmdreg (b : Block) (rd) (o : CmdOutcome) : (b.complete rd o).cmdreg = b.cmdreg := by
  cases o <;> rfl

theorem reg_complete_of_ne {rd j : RegIdx} (h : rd ≠ j) (b : Block) (o : CmdOutcome) :
    (b.complete rd o).reg j = b.reg j := by
  cases o <;> simp [Block.complete, reg_setReg_of_ne h]

/-! ### Accepting and acknowledging -/

@[simp] theorem inFlight_x (b : Block) (d) : (b.inFlight d).x = b.x := rfl
@[simp] theorem reg_inFlight (b : Block) (d) (i : RegIdx) : (b.inFlight d).reg i = b.reg i := rfl
@[simp] theorem inFlight_ie (b : Block) (d) : (b.inFlight d).ie = b.ie := rfl
@[simp] theorem inFlight_busy (b : Block) (d) : (b.inFlight d).busy = true := rfl
@[simp] theorem inFlight_done (b : Block) (d) : (b.inFlight d).done = false := rfl
@[simp] theorem inFlight_err (b : Block) (d) : (b.inFlight d).err = .ok := rfl
@[simp] theorem inFlight_wbusy (b : Block) (d) : (b.inFlight d).wbusy = b.wbusy := rfl
@[simp] theorem inFlight_jsym (b : Block) (d) : (b.inFlight d).jsym = .zero := rfl
@[simp] theorem inFlight_cmdreg (b : Block) (d) : (b.inFlight d).cmdreg = d := rfl

@[simp] theorem ackDone_x (b : Block) : b.ackDone.x = b.x := rfl
@[simp] theorem reg_ackDone (b : Block) (i : RegIdx) : b.ackDone.reg i = b.reg i := rfl
@[simp] theorem ackDone_ie (b : Block) : b.ackDone.ie = b.ie := rfl
@[simp] theorem ackDone_busy (b : Block) : b.ackDone.busy = b.busy := rfl
@[simp] theorem ackDone_done (b : Block) : b.ackDone.done = false := rfl
@[simp] theorem ackDone_err (b : Block) : b.ackDone.err = b.err := rfl
@[simp] theorem ackDone_wbusy (b : Block) : b.ackDone.wbusy = b.wbusy := rfl
@[simp] theorem ackDone_jsym (b : Block) : b.ackDone.jsym = b.jsym := rfl
@[simp] theorem ackDone_cmdreg (b : Block) : b.ackDone.cmdreg = b.cmdreg := rfl

/-! ### The machine's own fields -/

@[simp] theorem stateComplete_block (s : State) (rd o) : (s.complete rd o).block = s.block.complete rd o := rfl
@[simp] theorem stateComplete_turns (s : State) (rd o) : (s.complete rd o).turns = s.turns := rfl
@[simp] theorem stateComplete_rdata (s : State) (rd o) : (s.complete rd o).rdata = s.rdata := rfl
@[simp] theorem beginStep_block (s : State) : s.beginStep.block = s.block := rfl
@[simp] theorem beginStep_turns (s : State) : s.beginStep.turns = s.turns.tail := rfl
@[simp] theorem beginStep_rdata (s : State) : s.beginStep.rdata = 0 := rfl
@[simp] theorem reg_beginStep (s : State) (i : RegIdx) : s.beginStep.reg i = s.reg i := rfl

/-- Two blocks with the same registers and the same other fields are equal. -/
theorem Block.eq_of_fields {b b' : Block} (hx : ∀ i, b.reg i = b'.reg i) (hie : b.ie = b'.ie) (hbusy : b.busy = b'.busy)
    (hdone : b.done = b'.done) (herr : b.err = b'.err) (hwbusy : b.wbusy = b'.wbusy) (hjsym : b.jsym = b'.jsym)
    (hcmdreg : b.cmdreg = b'.cmdreg) : b = b' := by
  obtain ⟨x, _, _, _, _, _, _, _⟩ := b
  obtain ⟨x', _, _, _, _, _, _, _⟩ := b'
  have : x = x' := Vector.ext fun i hi => hx ⟨i, hi⟩
  simp_all

end Sys2Proof.Machine
end

