-- ==== Sys2Proof/Laws/Ops.lean ====
section
/-! SUPPORT. What each shared operation and one step can do, said once: later proofs cite these and do not unfold them. -/

namespace Sys2Proof.Machine

/-! ### Commands -/

/-- What R42's `exec` answers for a command in a state, at register width `words`. -/
def outcomeAt (words : Nat) (s : State) : Instr → CmdOutcome
  | .gcd _ ra rb => gcdOutcome (s.reg ra) (s.reg rb)
  | .modexp _ ra rb rm => modexpOutcome (s.reg ra) (s.reg rb) (s.reg rm)
  | .jacobi _ ra rn => jacobiOutcome (s.reg ra) (s.reg rn)
  | .montmul _ ra rb rm => oddModulus (s.reg rm) (montprod (width words) (s.reg ra) (s.reg rb) (s.reg rm))
  | .montr2 _ rm => oddModulus (s.reg rm) (radixSquare (width words) (s.reg rm))

/-- Every command completes: its next state has the writes of R42 for its outcome, and no other. -/
theorem execAt_eq (words : Nat) (i : Instr) (s : State) :
    execAt words i s = .next (s.complete i.dest (outcomeAt words s i)) := by
  cases i <;> rfl

/-- `exec` is the meaning at the open width. -/
theorem execAt_config (i : Instr) (s : State) : execAt Config.words i s = exec i s := by
  cases i <;> rfl

theorem exec_eq (i : Instr) (s : State) :
    exec i s = .next (s.complete i.dest (outcomeAt Config.words s i)) := by
  rw [← execAt_config, execAt_eq]

/-- A number the command writes is below 2^W when the registers it reads are (R22). -/
def CmdOutcome.inRange (words : Nat) : CmdOutcome → Prop
  | .value v => v < 2 ^ width words
  | .valueSym v _ => v < 2 ^ width words
  | .error _ => True

/-- A Jacobi symbol's residue is below an odd modulus. -/
theorem residue_lt {n : Nat} (hn : 0 < n) (j : Int) : residue j n < n := by
  have h0 : (0 : Int) ≤ j % n := Int.emod_nonneg _ (by omega)
  have h1 : j % (n : Int) < n := Int.emod_lt_of_pos _ (by omega)
  unfold residue
  omega

/-- Every command's outcome: an error its row of R171 lists, or a value no greater than its operands allow. -/
theorem outcomeAt_cases (words : Nat) (s : State) (i : Instr) :
    (∃ e ∈ raises i, outcomeAt words s i = .error e) ∨ (∃ v, outcomeAt words s i = .value v) ∨
      ∃ rd ra rn v j, i = .jacobi rd ra rn ∧ outcomeAt words s i = .valueSym v j := by
  cases i with
  | gcd rd ra rb => exact .inr (.inl ⟨_, rfl⟩)
  | modexp rd ra rb rm =>
    by_cases h : s.reg rm = 0
    · exact .inl ⟨.invalidModulus, by simp [raises], by simp [outcomeAt, modexpOutcome, h]⟩
    · exact .inr (.inl ⟨_, by simp only [outcomeAt, modexpOutcome, if_neg h]; rfl⟩)
  | jacobi rd ra rn =>
    by_cases h : isEven (s.reg rn) = true
    · exact .inl ⟨.jacobiDomain, by simp [raises], by simp [outcomeAt, jacobiOutcome, h]⟩
    · exact .inr (.inr ⟨rd, ra, rn, _, _, rfl, by simp only [outcomeAt, jacobiOutcome, if_neg h]; rfl⟩)
  | montmul rd ra rb rm =>
    by_cases h : s.reg rm = 0
    · exact .inl ⟨.invalidModulus, by simp [raises], by simp [outcomeAt, oddModulus, h]⟩
    · by_cases h' : isEven (s.reg rm) = true
      · exact .inl ⟨.evenModulus, by simp [raises], by simp [outcomeAt, oddModulus, h, h']⟩
      · exact .inr (.inl ⟨_, by simp only [outcomeAt, oddModulus, if_neg h, if_neg h']; rfl⟩)
  | montr2 rd rm =>
    by_cases h : s.reg rm = 0
    · exact .inl ⟨.invalidModulus, by simp [raises], by simp [outcomeAt, oddModulus, h]⟩
    · by_cases h' : isEven (s.reg rm) = true
      · exact .inl ⟨.evenModulus, by simp [raises], by simp [outcomeAt, oddModulus, h, h']⟩
      · exact .inr (.inl ⟨_, by simp only [outcomeAt, oddModulus, if_neg h, if_neg h']; rfl⟩)

/-- No result exceeds the width (R22). -/
theorem outcomeAt_inRange {words : Nat} {s : State} (h : s.block.inRange words) (i : Instr) :
    (outcomeAt words s i).inRange words := by
  cases i with
  | gcd rd ra rb =>
    simp only [outcomeAt, gcdOutcome, CmdOutcome.inRange, euclid_eq_gcd]
    rcases Nat.eq_zero_or_pos (s.reg ra) with h0 | h0
    · rw [h0, Nat.gcd_zero_left]; exact h rb
    · exact lt_of_le_of_lt (Nat.gcd_le_left _ h0) (h ra)
  | modexp rd ra rb rm =>
    simp only [outcomeAt, modexpOutcome]
    split
    · trivial
    · next h0 =>
      simp only [CmdOutcome.inRange, modexp_eq_pow_mod]
      exact lt_trans (Nat.mod_lt _ (Nat.pos_of_ne_zero h0)) (h rm)
  | jacobi rd ra rn =>
    simp only [outcomeAt, jacobiOutcome]
    split
    · trivial
    · next h0 =>
      have hpos : 0 < s.reg rn := by
        rcases Nat.eq_zero_or_pos (s.reg rn) with h1 | h1
        · simp [isEven, h1] at h0
        · exact h1
      exact lt_trans (residue_lt hpos _) (h rn)
  | montmul rd ra rb rm =>
    simp only [outcomeAt, oddModulus]
    split
    · trivial
    · next h0 =>
      split
      · trivial
      · exact lt_trans (Nat.mod_lt _ (Nat.pos_of_ne_zero h0)) (h rm)
  | montr2 rd rm =>
    simp only [outcomeAt, oddModulus]
    split
    · trivial
    · next h0 =>
      split
      · trivial
      · exact lt_trans (Nat.mod_lt _ (Nat.pos_of_ne_zero h0)) (h rm)

/-! ### Bus accesses -/

/-- Replacing a word of a number below 2^W leaves it below 2^W (R69). -/
theorem setWord_lt {words k v : Nat} (hk : k < words) (hv : v < 2 ^ width words) (d : Word) :
    setWord v k d < 2 ^ width words := by
  have hw : width words = 32 * (k + 1) + 32 * (words - (k + 1)) := by unfold width; omega
  have hd : d.toNat < 2 ^ 32 := d.isLt
  have hlow : v % 2 ^ (32 * k) + d.toNat * 2 ^ (32 * k) < 2 ^ (32 * (k + 1)) := by
    have h1 : v % 2 ^ (32 * k) < 2 ^ (32 * k) := Nat.mod_lt _ (by positivity)
    have h2 : 2 ^ (32 * (k + 1)) = 2 ^ 32 * 2 ^ (32 * k) := by rw [← pow_add]; congr 1; omega
    have h3 : (d.toNat + 1) * 2 ^ (32 * k) ≤ 2 ^ 32 * 2 ^ (32 * k) := Nat.mul_le_mul_right _ hd
    rw [h2]
    nlinarith
  have hhigh : v / 2 ^ (32 * (k + 1)) + 1 ≤ 2 ^ (32 * (words - (k + 1))) := by
    apply Nat.div_lt_of_lt_mul
    rwa [← pow_add, ← hw]
  have hmul := Nat.mul_le_mul_right (2 ^ (32 * (k + 1))) hhigh
  rw [hw, pow_add, mul_comm (2 ^ (32 * (k + 1)))]
  unfold setWord
  nlinarith

/-- A mapped word has an index below the number of words of a register (R62). -/
theorem busTarget_operand_lt {words : Nat} {w : WordIdx} {i : RegIdx} {k : Nat} (h : busTarget words w = .operand i k) :
    k < words := by
  unfold busTarget at h
  repeat' split at h
  all_goals simp_all

/-- A bus write does one of these (R68, R70): nothing, a reset, a new IE, an acknowledgement, an accept, a discard that sets
WBUSY, or an operand word. -/
theorem busWrite_cases (words : Nat) (b : Block) (w : WordIdx) (d : Word) :
    b.busWrite words w d = b ∨
    (busTarget words w = .ctrl ∧ d[31] = true ∧ b.busWrite words w d = Block.reset) ∨
    (busTarget words w = .ctrl ∧ d[31] = false ∧ b.busWrite words w d = { b with ie := d[0] }) ∨
    (busTarget words w = .status ∧ b.busWrite words w d =
      { b with done := b.done && !d[1], wbusy := b.wbusy && !d[8] }) ∨
    (busTarget words w = .cmd ∧ b.busy = false ∧ b.busWrite words w d = b.inFlight d) ∨
    (b.busy = true ∧ b.busWrite words w d = { b with wbusy := true }) ∨
    (∃ i k, busTarget words w = .operand i k ∧ k < words ∧ b.busy = false ∧
      b.busWrite words w d = b.setReg i (setWord (b.reg i) k d)) := by
  unfold Block.busWrite
  cases ht : busTarget words w with
  | id => simp
  | param => simp
  | reserved => simp
  | ctrl =>
    cases h : d[31] with
    | true => exact .inr (.inl ⟨rfl, rfl, by simp [Block.writeCtrl, h]⟩)
    | false => exact .inr (.inr (.inl ⟨rfl, rfl, by simp [Block.writeCtrl, h]⟩))
  | status =>
    refine .inr (.inr (.inr (.inl ⟨rfl, ?_⟩)))
    cases h1 : d[1] <;> cases h8 : d[8] <;> simp [Block.writeStatus, h1, h8, Block.ackDone]
  | cmd =>
    cases h : b.busy with
    | false => exact .inr (.inr (.inr (.inr (.inl ⟨rfl, rfl, by simp [Block.writeCmd, h]⟩))))
    | true => exact .inr (.inr (.inr (.inr (.inr (.inl ⟨rfl, by simp [Block.writeCmd, h]⟩)))))
  | operand i k =>
    cases h : b.busy with
    | false =>
      exact .inr (.inr (.inr (.inr (.inr (.inr ⟨i, k, rfl, busTarget_operand_lt ht, rfl, by simp [Block.writeOperand, h]⟩)))))
    | true => exact .inr (.inr (.inr (.inr (.inr (.inl ⟨rfl, by simp [Block.writeOperand, h]⟩)))))

/-! ### One step -/

/-- A busy block's `Complete` runs the command its word decodes to (R42). -/
theorem completeStep_cmd {ex : Instr → State → Host.Outcome State Fault Refusal} {s : State} {i : Instr}
    (hb : s.block.busy = true) (hd : decode s.block.cmdreg = .cmd i) : completeStep ex s = ex i s := by
  simp [completeStep, hb, hd]

/-- An illegal word completes with ILLEGAL_CMD (R172). -/
theorem completeStep_illegal {ex : Instr → State → Host.Outcome State Fault Refusal} {s : State} {why : Illegal}
    (hb : s.block.busy = true) (hd : decode s.block.cmdreg = .illegal why) :
    completeStep ex s = .next { s with block := s.block.takeError .illegalCmd } := by
  simp [completeStep, hb, hd]

/-- An idle block's engine has no step (R40). -/
theorem completeStep_idle {ex : Instr → State → Host.Outcome State Fault Refusal} {s : State}
    (hb : s.block.busy = false) : completeStep ex s = .next s := by
  simp [completeStep, hb]

/-- What one step can do (R40), said once: a step that answers a next state is a bus write, a bus read, a reset, the
completion of a command or of an illegal word, or the engine's turn while idle. -/
theorem step_cases {s t : State} (h : step s = .next t) :
    (∃ w d, s.nextKind Config.base = .ok (.busWrite w d) ∧
      t = { s.beginStep with block := s.block.busWrite Config.words w d }) ∨
    (∃ w, s.nextKind Config.base = .ok (.busRead w) ∧ t = { s.beginStep with rdata := s.block.busRead Config.words w }) ∨
    (s.nextKind Config.base = .ok .reset ∧ t = { s.beginStep with block := Block.reset }) ∨
    (s.nextKind Config.base = .ok .complete ∧ s.block.busy = true ∧ ∃ i, decode s.block.cmdreg = .cmd i ∧
      t = s.beginStep.complete i.dest (outcomeAt Config.words s i)) ∨
    (s.nextKind Config.base = .ok .complete ∧ s.block.busy = true ∧ ∃ why, decode s.block.cmdreg = .illegal why ∧
      t = { s.beginStep with block := s.block.takeError .illegalCmd }) ∨
    (s.nextKind Config.base = .ok .complete ∧ s.block.busy = false ∧ t = s.beginStep) := by
  unfold step stepWith at h
  cases hk : s.nextKind Config.base with
  | error f => simp [hk] at h
  | ok k =>
    simp only [hk] at h
    cases k with
    | busWrite w d => exact .inl ⟨w, d, rfl, by simpa [performStep] using h.symm⟩
    | busRead w => exact .inr (.inl ⟨w, rfl, by simpa [performStep] using h.symm⟩)
    | reset => exact .inr (.inr (.inl ⟨rfl, by simpa [performStep] using h.symm⟩))
    | complete =>
      simp only [performStep] at h
      cases hb : s.block.busy with
      | false =>
        rw [completeStep_idle (s := s.beginStep) hb, Host.Outcome.next.injEq] at h
        exact .inr (.inr (.inr (.inr (.inr ⟨rfl, rfl, h.symm⟩))))
      | true =>
        cases hd : decode s.block.cmdreg with
        | cmd i =>
          rw [completeStep_cmd (s := s.beginStep) hb hd, exec_eq, Host.Outcome.next.injEq] at h
          exact .inr (.inr (.inr (.inl ⟨rfl, rfl, i, rfl, by rw [← h]; cases i <;> rfl⟩)))
        | illegal why =>
          rw [completeStep_illegal (s := s.beginStep) hb hd, Host.Outcome.next.injEq] at h
          exact .inr (.inr (.inr (.inr (.inl ⟨rfl, rfl, why, rfl, h.symm⟩))))

/-- A step answers a next state unless a bridge refuses the next access (R66). -/
theorem step_next {s : State} {k : StepKind} (h : s.nextKind Config.base = .ok k) : ∃ t, step s = .next t := by
  unfold step stepWith
  simp only [h]
  cases k with
  | complete =>
    simp only [performStep]
    cases hb : s.block.busy with
    | false => exact ⟨_, completeStep_idle (s := s.beginStep) hb⟩
    | true =>
      cases hd : decode s.block.cmdreg with
      | cmd i => exact ⟨_, (completeStep_cmd (s := s.beginStep) hb hd).trans (exec_eq i _)⟩
      | illegal why => exact ⟨_, completeStep_illegal (s := s.beginStep) hb hd⟩
  | _ => exact ⟨_, rfl⟩

/-! ### Several steps -/

@[simp] theorem runSteps_zero (s : State) : runSteps 0 s = .next s := rfl

/-- A machine's run goes on from the state its first step answers. -/
theorem coreRun_succ (M : Host.Core) {s t : M.State} (h : M.step s = .next t) (n : Nat) : M.run (n + 1) s = M.run n t := by
  simp [Host.Core.run, h]

/-- A run goes on from the state its first step answers. -/
theorem runSteps_succ {s t : State} (h : step s = .next t) (n : Nat) : runSteps (n + 1) s = runSteps n t :=
  coreRun_succ Sys2Proof.core h n

@[simp] theorem step_withTurn_busWrite (s : State) (w : WordIdx) (d : Word) :
    step (s.withTurn (.busWrite w d)) = .next { s with block := s.block.busWrite Config.words w d, rdata := 0 } := rfl

@[simp] theorem step_withTurn_busRead (s : State) (w : WordIdx) :
    step (s.withTurn (.busRead w)) = .next { s with rdata := s.block.busRead Config.words w } := rfl

@[simp] theorem step_withTurn_reset (s : State) :
    step (s.withTurn .reset) = .next { s with block := Block.reset, rdata := 0 } := rfl

/-- A step uses up one turn. -/
theorem step_turns {s t : State} (h : step s = .next t) : t.turns = s.turns.tail := by
  rcases step_cases h with ⟨_, _, _, rfl⟩ | ⟨_, _, rfl⟩ | ⟨_, rfl⟩ | ⟨_, _, _, _, rfl⟩ | ⟨_, _, _, _, rfl⟩ | ⟨_, _, rfl⟩ <;> rfl

end Sys2Proof.Machine
end

