-- ==== Sys2Proof/Laws/Bus.lean ====
section
/-! SUPPORT. The address map by numbers, the words of a register, and what a bridge admits. -/

namespace Sys2Proof.Machine

@[simp] theorem busTarget_id (words : Nat) : busTarget words 0#13 = .id := rfl
@[simp] theorem busTarget_param (words : Nat) : busTarget words 1#13 = .param := rfl
@[simp] theorem busTarget_ctrl (words : Nat) : busTarget words 2#13 = .ctrl := rfl
@[simp] theorem busTarget_status (words : Nat) : busTarget words 3#13 = .status := rfl
@[simp] theorem busTarget_cmd (words : Nat) : busTarget words 4#13 = .cmd := rfl

/-- A write to ID changes nothing (R24, R68). -/
@[simp] theorem busWrite_id (words : Nat) (b : Block) (d : Word) : b.busWrite words 0#13 d = b := rfl

/-- A write to PARAM changes nothing (R25, R68). -/
@[simp] theorem busWrite_param (words : Nat) (b : Block) (d : Word) : b.busWrite words 1#13 d = b := rfl

/-- Only index 2 is CTRL's (R61). -/
theorem busTarget_eq_ctrl {words : Nat} {w : WordIdx} : busTarget words w = .ctrl ↔ w = 2 := by
  refine ⟨fun h => ?_, fun h => h ▸ rfl⟩
  unfold busTarget at h
  repeat' split at h
  all_goals simp_all

/-- Only index 3 is STATUS's (R61). -/
theorem busTarget_eq_status {words : Nat} {w : WordIdx} : busTarget words w = .status ↔ w = 3 := by
  refine ⟨fun h => ?_, fun h => h ▸ rfl⟩
  unfold busTarget at h
  repeat' split at h
  all_goals simp_all

/-- Only index 4 is CMD's (R61). -/
theorem busTarget_eq_cmd {words : Nat} {w : WordIdx} : busTarget words w = .cmd ↔ w = 4 := by
  refine ⟨fun h => ?_, fun h => h ▸ rfl⟩
  unfold busTarget at h
  repeat' split at h
  all_goals simp_all

theorem config_words_pos : 0 < Config.words := Nat.succ_pos _

theorem config_words_le : Config.words ≤ 256 := Config.wordsIndex.isLt

/-- A word index as the number of its bits [12], [11:8] and [7:0]. -/
theorem wordIdx_split (w : WordIdx) :
    w.toNat = w.toNat / 0x1000 * 0x1000 + (regOf (w.extractLsb' 8 4)).val * 0x100 + (w.extractLsb' 0 8).toNat ∧
      (w.extractLsb' 0 8).toNat = w.toNat % 0x100 := by
  have h := w.isLt
  rw [regOf_val, BitVec.extractLsb'_toNat, BitVec.extractLsb'_toNat, Nat.shiftRight_eq_div_pow, Nat.shiftRight_eq_div_pow]
  omega

/-- An index above CMD's is none of the five control registers' (R61). -/
theorem ne_control_of_le {w : WordIdx} (h : 5 ≤ w.toNat) : w ≠ 0 ∧ w ≠ 1 ∧ w ≠ 2 ∧ w ≠ 3 ∧ w ≠ 4 := by
  refine ⟨?_, ?_, ?_, ?_, ?_⟩ <;> rintro rfl <;> revert h <;> decide

/-- Below the operand window, an index above CMD's is reserved (R61). -/
theorem busTarget_low (words : Nat) {w : WordIdx} (h5 : 5 ≤ w.toNat) (h : w.toNat < 0x1000) :
    busTarget words w = .reserved := by
  obtain ⟨h0, h1, h2, h3, h4⟩ := ne_control_of_le (w := w) (by omega)
  have hlt : w < 0x1000 := by
    rw [BitVec.lt_def]
    exact h
  unfold busTarget
  rw [if_neg h0, if_neg h1, if_neg h2, if_neg h3, if_neg h4, if_pos hlt]

/-- In the operand window, an index names a word of a register, or is reserved beyond the register's words (R62). -/
theorem busTarget_high (words : Nat) {w : WordIdx} (h : 0x1000 ≤ w.toNat) :
    busTarget words w =
      if w.toNat % 0x100 < words then .operand (regOf (w.extractLsb' 8 4)) (w.toNat % 0x100) else .reserved := by
  obtain ⟨h0, h1, h2, h3, h4⟩ := ne_control_of_le (w := w) (by omega)
  have hlt : ¬w < 0x1000 := by
    rw [BitVec.lt_def, not_lt]
    exact h
  unfold busTarget
  rw [if_neg h0, if_neg h1, if_neg h2, if_neg h3, if_neg h4, if_neg hlt, (wordIdx_split w).2]

/-- The number of an operand word's index (R62). -/
theorem operandIdx_toNat {i : RegIdx} {k : Nat} (hk : k < 256) : (operandIdx i k).toNat = 0x1000 + 0x100 * i.val + k := by
  have := i.isLt
  unfold operandIdx
  rw [BitVec.toNat_ofNat, Nat.mod_eq_of_lt]
  omega

/-- An operand word's index names that word, when the register has it, and is reserved otherwise (R62, R63). -/
theorem busTarget_operandIdx (words : Nat) (i : RegIdx) {k : Nat} (hk : k < 256) :
    busTarget words (operandIdx i k) = if k < words then .operand i k else .reserved := by
  have hi := i.isLt
  have hn := operandIdx_toNat (i := i) hk
  have hsplit := (wordIdx_split (operandIdx i k)).1
  have hlow : (operandIdx i k).toNat % 0x100 = k := by omega
  have hreg : regOf ((operandIdx i k).extractLsb' 8 4) = i := by
    apply Fin.ext
    rw [(wordIdx_split _).2] at hsplit
    omega
  rw [busTarget_high words (by omega), hlow, hreg]

/-- An index that names an operand word is that word's (R62): no two indices name the same word. -/
theorem eq_operandIdx_of_busTarget {words : Nat} {w : WordIdx} {i : RegIdx} {k : Nat}
    (h : busTarget words w = .operand i k) : w = operandIdx i k := by
  by_cases hw : 0x1000 ≤ w.toNat
  · rw [busTarget_high words hw] at h
    split at h
    · obtain ⟨rfl, rfl⟩ := BusTarget.operand.inj h
      have hsplit := wordIdx_split w
      have hlt := w.isLt
      apply BitVec.eq_of_toNat_eq
      rw [operandIdx_toNat (by omega)]
      omega
    · cases h
  · exfalso
    by_cases h5 : 5 ≤ w.toNat
    · rw [busTarget_low words h5 (by omega)] at h
      cases h
    · have : w = 0 ∨ w = 1 ∨ w = 2 ∨ w = 3 ∨ w = 4 := by
        rcases (show w.toNat = 0 ∨ w.toNat = 1 ∨ w.toNat = 2 ∨ w.toNat = 3 ∨ w.toNat = 4 by omega) with h | h | h | h | h
        · exact .inl (BitVec.eq_of_toNat_eq h)
        · exact .inr (.inl (BitVec.eq_of_toNat_eq h))
        · exact .inr (.inr (.inl (BitVec.eq_of_toNat_eq h)))
        · exact .inr (.inr (.inr (.inl (BitVec.eq_of_toNat_eq h))))
        · exact .inr (.inr (.inr (.inr (BitVec.eq_of_toNat_eq h))))
      rcases this with rfl | rfl | rfl | rfl | rfl <;> simp at h

/-- The macros' byte offset of an operand word is its index (R60, R62). -/
theorem operandIdx_of_offset (i : RegIdx) (k : Nat) :
    BitVec.ofNat 13 ((0x4000 + 0x400 * i.val + 4 * k) / 4) = operandIdx i k := by
  unfold operandIdx
  congr 1
  omega

/-- The bits of a number with one word replaced (R69). -/
theorem testBit_setWord (v k n : Nat) (d : Word) :
    (setWord v k d).testBit n =
      if 32 * k ≤ n ∧ n < 32 * k + 32 then d.getLsbD (n - 32 * k) else v.testBit n := by
  have hd : d.toNat < 2 ^ 32 := d.isLt
  have hsum : setWord v k d = 2 ^ (32 * k) * (2 ^ 32 * (v / 2 ^ (32 * (k + 1))) + d.toNat) + v % 2 ^ (32 * k) := by
    unfold setWord
    rw [show 32 * (k + 1) = 32 * k + 32 by ring, pow_add]
    ring
  rw [hsum, Nat.testBit_two_pow_mul_add _ (Nat.mod_lt _ (by positivity)), Nat.testBit_two_pow_mul_add _ hd,
    Nat.testBit_mod_two_pow, Nat.testBit_div_two_pow]
  by_cases h1 : n < 32 * k
  · have h2 : ¬(32 * k ≤ n ∧ n < 32 * k + 32) := by omega
    simp [h1, h2]
  · by_cases h3 : n - 32 * k < 32
    · have h2 : 32 * k ≤ n ∧ n < 32 * k + 32 := by omega
      rw [if_neg h1, if_pos h3, if_pos h2]
      rfl
    · have h2 : ¬(32 * k ≤ n ∧ n < 32 * k + 32) := by omega
      rw [if_neg h1, if_neg h3, if_neg h2, show n - 32 * k - 32 + 32 * (k + 1) = n by omega]

/-- The bits of a word of a number (R12). -/
theorem getLsbD_wordOf (v k n : Nat) : (wordOf v k).getLsbD n = (decide (n < 32) && v.testBit (32 * k + n)) := by
  rw [wordOf, BitVec.getLsbD_ofNat, Nat.testBit_div_two_pow, Nat.add_comm]

/-- Reading the replaced word gives what was written. -/
theorem wordOf_setWord_self (v k : Nat) (d : Word) : wordOf (setWord v k d) k = d := by
  apply BitVec.eq_of_getLsbD_eq
  intro n hn
  rw [getLsbD_wordOf, testBit_setWord, if_pos (by omega)]
  simp [hn]

/-- Reading another word gives what was there. -/
theorem wordOf_setWord_of_ne {k j : Nat} (h : j ≠ k) (v : Nat) (d : Word) : wordOf (setWord v k d) j = wordOf v j := by
  apply BitVec.eq_of_getLsbD_eq
  intro n hn
  rw [getLsbD_wordOf, getLsbD_wordOf, testBit_setWord, if_neg (by omega)]

/-- The code of a symbol is its two's-complement number: sext(JSYM) = j (R32, R146). -/
@[simp] theorem JSym.code_toInt (j : JSym) : j.code.toInt = j.toInt := by cases j <;> rfl

/-! ### Bridged accesses -/

/-- Four bytes make the word of their little-endian lanes (R65). -/
theorem wordOfBytes_four (b0 b1 b2 b3 : Byte) : wordOfBytes [b0, b1, b2, b3] = b3 ++ b2 ++ b1 ++ b0 := by
  apply BitVec.eq_of_getLsbD_eq
  intro i hi
  simp only [wordOfBytes, BitVec.getLsbD_or, BitVec.getLsbD_setWidth, BitVec.getLsbD_shiftLeft, BitVec.getLsbD_append]
  by_cases h0 : i < 8
  · simp [h0, hi]
  · by_cases h1 : i < 16
    · have : b0.getLsbD i = false := BitVec.getLsbD_of_ge _ _ (by omega)
      have : i - 8 < 32 := by omega
      have : i - 8 < 8 := by omega
      simp [*]
    · by_cases h2 : i < 24
      · have : b0.getLsbD i = false := BitVec.getLsbD_of_ge _ _ (by omega)
        have : b1.getLsbD (i - 8) = false := BitVec.getLsbD_of_ge _ _ (by omega)
        have : ¬ i - 8 < 8 := by omega
        have : i - 8 - 8 < 8 := by omega
        have : i - 8 < 32 := by omega
        have : i - 8 - 8 < 32 := by omega
        simp [*]
      · have : b0.getLsbD i = false := BitVec.getLsbD_of_ge _ _ (by omega)
        have : b1.getLsbD (i - 8) = false := BitVec.getLsbD_of_ge _ _ (by omega)
        have : b2.getLsbD (i - 8 - 8) = false := BitVec.getLsbD_of_ge _ _ (by omega)
        have : ¬ i - 8 < 8 := by omega
        have : ¬ i - 8 - 8 < 8 := by omega
        have : ¬ i - 8 - 8 - 8 ≥ 8 := by omega
        have : i - 8 < 32 := by omega
        have : i - 8 - 8 < 32 := by omega
        have : i - 8 - 8 - 8 < 32 := by omega
        simp [*]

/-- A bridge passes an aligned access of four bytes in the window (R66). -/
theorem bridgeAdmit_word (n : Nat) (w : WordIdx) : bridgeAdmit (0x8000 * n) (0x8000 * n + 4 * w.toNat) 4 = .ok w := by
  have hw := w.isLt
  unfold bridgeAdmit Config.windowBytes
  rw [if_neg (by omega), if_pos ⟨rfl, by omega⟩]
  congr 1
  apply BitVec.eq_of_toNat_eq
  rw [BitVec.toNat_ofNat]
  omega

/-- A bridge refuses every other access that starts in the window (R66). -/
theorem bridgeAdmit_misfit (n : Nat) {off len : Nat} (h : off < 0x8000) (hbad : off % 4 ≠ 0 ∨ len ≠ 4) :
    bridgeAdmit (0x8000 * n) (0x8000 * n + off) len = .error .bridgeBusError := by
  unfold bridgeAdmit Config.windowBytes
  rw [if_neg (by omega), if_neg (by omega)]

/-- An access that starts outside the window is not the block's (R60). -/
theorem bridgeAdmit_outside {base addr : Nat} (h : addr < base ∨ base + 0x8000 ≤ addr) (len : Nat) :
    bridgeAdmit base addr len = .error .outsideWindow := if_pos h

end Sys2Proof.Machine
end

