-- ==== Sys2Proof/Laws/PerInstr.lean ====
section
/-! SUPPORT. Statements about every command as syntax, one lemma for each constructor. -/

namespace Sys2Proof.Laws.LegalWord

/-- R91, R94: the command is well-formed, its opcode is that of the row of its mnemonic, and R94 on its fields
gives the command back. -/
def Statement (i : Instr) : Prop :=
  i.wellFormed = true ∧ decodeFields i.fields = .cmd i ∧ ∃ r ∈ opRows, r.mnemonic = i.mnemonic ∧ r.value.setWidth 8 = i.fields.op

theorem gcd (rd ra rb : RegIdx) : Statement (.gcd rd ra rb) :=
  ⟨rfl, rfl, ⟨"GCD", 0xFFF000FF, 0x00000001⟩, by decide, rfl, rfl⟩

theorem modexp (rd ra rb rm : RegIdx) : Statement (.modexp rd ra rb rm) :=
  ⟨rfl, rfl, ⟨"MODEXP", 0xFF0000FF, 0x00000002⟩, by decide, rfl, rfl⟩

theorem jacobi (rd ra rn : RegIdx) : Statement (.jacobi rd ra rn) :=
  ⟨rfl, rfl, ⟨"JACOBI", 0xFFF000FF, 0x00000003⟩, by decide, rfl, rfl⟩

theorem montmul (rd ra rb rm : RegIdx) : Statement (.montmul rd ra rb rm) :=
  ⟨rfl, rfl, ⟨"MONTMUL", 0xFF0000FF, 0x00000004⟩, by decide, rfl, rfl⟩

theorem montr2 (rd rm : RegIdx) : Statement (.montr2 rd rm) :=
  ⟨rfl, rfl, ⟨"MONTR2", 0xFF0FF0FF, 0x00000005⟩, by decide, rfl, rfl⟩

end Sys2Proof.Laws.LegalWord
end

