-- ==== Sys2Proof/Tests/Slice0.lean ====
section
/-! SUPPORT. Smoke tests of the model. Every expected value is the spec's own: 95_test_vectors.md, by its section, or a rule's
example. Then one witness for each statement with hypotheses: states and operands that meet them, at the ends of their range. -/

open Sys2Proof Sys2Proof.Machine

namespace Sys2Proof.Tests

/-! ### Helpers -/

/-- A block as reset leaves it, with some registers loaded. -/
def loaded (rs : List (RegIdx × Nat)) : Block := rs.foldl (fun b p => b.setReg p.1 p.2) Block.reset

/-- An idle machine with some registers loaded and no turn to come. -/
def idle (rs : List (RegIdx × Nat)) : State := ⟨loaded rs, [], 0⟩

/-- The same machine with a command in flight. -/
def busy (rs : List (RegIdx × Nat)) (c : Word) : State := ⟨(loaded rs).inFlight c, [], 0⟩

/-- A register and the STATUS word of the next state. -/
def seen (i : RegIdx) : Host.Outcome State Fault Refusal → Option (Nat × Word)
  | .next t => some (t.reg i, t.block.statusWord)
  | .fault _ => none
  | .refused _ => none

/-- The block of the next state. -/
def blockAfter : Host.Outcome State Fault Refusal → Option Block
  | .next t => some t.block
  | .fault _ => none
  | .refused _ => none

/-- A number below 2^32 fits every width. -/
theorem lt_width {v : Nat} (h : v < 2 ^ 32) : v < 2 ^ width Config.words :=
  lt_of_lt_of_le h (Nat.pow_le_pow_right (by omega) (by have := config_words_pos; unfold width; omega))

theorem inRange_of_lt {b : Block} (h : ∀ i, b.reg i < 2 ^ 32) : b.inRange Config.words := fun i => lt_width (h i)

/-! ### Well-formed fields: an ill-formed term for each check (R91) -/

theorem test_wellFormed_accepts : (Fields.mk 0x05 8 0 0 2 0).wellFormed = true := by decide
theorem test_wellFormed_refuses_zeroField : (Fields.mk 0x02 5 0 1 2 0x80).wellFormed = false := by decide
theorem test_wellFormed_refuses_opcode_zero : (Fields.mk 0x00 0 0 0 0 0).wellFormed = false := by decide
theorem test_wellFormed_refuses_opcode_six : (Fields.mk 0x06 2 0 1 0 0).wellFormed = false := by decide
theorem test_wellFormed_refuses_gcd_rm : (Fields.mk 0x01 2 0 1 1 0).wellFormed = false := by decide
theorem test_wellFormed_refuses_jacobi_rm : (Fields.mk 0x03 2 0 1 15 0).wellFormed = false := by decide
theorem test_wellFormed_refuses_montr2_ra : (Fields.mk 0x05 8 1 0 2 0).wellFormed = false := by decide
theorem test_wellFormed_refuses_montr2_rb : (Fields.mk 0x05 8 0 1 2 0).wellFormed = false := by decide

/-! ### Decoding, words written field by field: ZERO RM RB RA RD OP (section 2.5, R90) -/

theorem test_decode_gcd :
    decode 0b00000000_0000_0001_0000_0010_00000001 = .cmd (.gcd 2 0 1) ∧
    decode 0b00000000_0000_1111_1111_1111_00000001 = .cmd (.gcd 15 15 15) := by decide
theorem test_decode_modexp :
    decode 0b00000000_0010_0001_0000_0101_00000010 = .cmd (.modexp 5 0 1 2) ∧
    decode 0b00000000_1111_1111_1111_1111_00000010 = .cmd (.modexp 15 15 15 15) := by decide
theorem test_decode_jacobi : decode 0b00000000_0000_0001_0000_0011_00000011 = .cmd (.jacobi 3 0 1) := by decide
theorem test_decode_montmul : decode 0b00000000_0010_0110_0100_0111_00000100 = .cmd (.montmul 7 4 6 2) := by decide
theorem test_decode_montr2 :
    decode 0b00000000_0010_0000_0000_1000_00000101 = .cmd (.montr2 8 2) ∧
    decode 0b00000000_1111_0000_0000_1111_00000101 = .cmd (.montr2 15 15) := by decide
theorem test_decode_illegal :
    decode 0x00000000 = .illegal .opcode ∧ decode 0x00010206 = .illegal .opcode ∧ decode 0x000102FF = .illegal .opcode ∧
    decode 0x00110201 = .illegal .unusedField ∧ decode 0x00F10203 = .illegal .unusedField ∧
    decode 0x00201805 = .illegal .unusedField ∧ decode 0x00210805 = .illegal .unusedField ∧
    decode 0x01010201 = .illegal .zeroField ∧ decode 0x80210502 = .illegal .zeroField ∧
    decode 0xFFFFFFFF = .illegal .zeroField := by decide
/-- The words of program P1. -/
theorem test_encode :
    encode (.modexp 6 3 1 2) = 0x00213602 ∧ encode (.montmul 13 13 8 2) = 0x0028DD04 ∧ encode (.montr2 8 2) = 0x00200805 ∧
    encode (.jacobi 4 0 1) = 0x00010403 ∧ encode (.gcd 3 0 1) = 0x00010301 := by decide
theorem test_commandLine : commandLine (.modexp 5 0 1 2) = "MODEXP X5, X0, X1, X2" := by decide

/-! ### Commands (sections 2.1 to 2.4) -/

theorem test_gcd_overwrites_its_source : seen 0 (exec (.gcd 0 0 1) (idle [(0, 48), (1, 18)])) = some (6, 0x00000002) := by decide
theorem test_gcd_of_two_zeros_and_wide :
    seen 2 (exec (.gcd 2 0 1) (idle [(2, 57005)])) = some (0, 0x00000002) ∧
    seen 2 (exec (.gcd 2 0 1) (idle [(0, 2 ^ 256 - 1), (1, 2 ^ 128 - 1)])) = some (2 ^ 128 - 1, 0x00000002) := by
  decide +kernel
theorem test_modexp_known_value :
    seen 2 (exec (.modexp 2 0 1 2) (idle [(0, 2), (1, 1520), (2, 2357)])) = some (1430, 0x00000002) ∧
    seen 3 (exec (.modexp 3 0 1 2) (idle [(0, 3), (1, 2 ^ 256 - 190), (2, 2 ^ 256 - 189)])) = some (1, 0x00000002) := by
  decide +kernel
theorem test_modexp_corners :
    seen 3 (exec (.modexp 3 0 1 2) (idle [(0, 5), (1, 7), (3, 57005)])) = some (57005, 0x00000022) ∧
    seen 3 (exec (.modexp 3 0 1 2) (idle [(2, 1), (3, 57005)])) = some (0, 0x00000002) ∧
    seen 3 (exec (.modexp 3 0 1 2) (idle [(2, 7)])) = some (1, 0x00000002) ∧
    seen 3 (exec (.modexp 3 0 1 2) (idle [(0, 7), (1, 5), (2, 10)])) = some (7, 0x00000002) := by decide +kernel
theorem test_jacobi_symbols :
    seen 2 (exec (.jacobi 2 0 1) (idle [(0, 1001), (1, 9907)])) = some (9906, 0x00003002) ∧
    seen 2 (exec (.jacobi 2 0 1) (idle [(0, 2356), (1, 2357)])) = some (1, 0x00001002) ∧
    seen 2 (exec (.jacobi 2 0 1) (idle [(0, 3), (1, 561)])) = some (0, 0x00000002) := by decide +kernel
theorem test_jacobi_corners :
    seen 2 (exec (.jacobi 2 0 1) (idle [(1, 1), (2, 57005)])) = some (0, 0x00001002) ∧
    seen 2 (exec (.jacobi 2 0 1) (idle [(0, 1), (1, 10), (2, 57005)])) = some (57005, 0x00000042) := by decide +kernel
theorem test_montmul_by_width :
    seen 7 (execAt 1 (.montmul 7 4 6 2) (idle [(4, 2035), (6, 2084), (2, 2357)])) = some (1782, 0x00000002) ∧
    seen 7 (execAt 2 (.montmul 7 4 6 2) (idle [(4, 2035), (6, 2084), (2, 2357)])) = some (1313, 0x00000002) ∧
    seen 3 (execAt 8 (.montmul 3 0 1 2) (idle [(0, 2), (1, 3), (2, 2 ^ 256 - 189)])) =
      some (0xDF7DF7DF7DF7DF7DF7DF7DF7DF7DF7DF7DF7DF7DF7DF7DF7DF7DF7DF7DF7DED9, 0x00000002) := by decide +kernel
theorem test_montmul_corners :
    seen 3 (execAt 1 (.montmul 3 0 1 2) (idle [(0, 5000), (1, 7000), (2, 2357)])) = some (1159, 0x00000002) ∧
    seen 3 (exec (.montmul 3 0 1 2) (idle [(0, 7), (1, 5), (3, 57005)])) = some (57005, 0x00000022) ∧
    seen 3 (exec (.montmul 3 0 1 2) (idle [(0, 7), (1, 5), (2, 10), (3, 57005)])) = some (57005, 0x00000032) := by
  decide +kernel
theorem test_montr2_by_width :
    seen 8 (execAt 1 (.montr2 8 2) (idle [(2, 2357)])) = some (417, 0x00000002) ∧
    seen 2 (execAt 8 (.montr2 2 2) (idle [(2, 2357)])) = some (2046, 0x00000002) := by decide +kernel
theorem test_montr2_corners :
    seen 3 (execAt 1 (.montr2 3 2) (idle [(2, 1), (3, 57005)])) = some (0, 0x00000002) ∧
    seen 3 (exec (.montr2 3 2) (idle [(3, 57005)])) = some (57005, 0x00000022) ∧
    seen 3 (exec (.montr2 3 2) (idle [(2, 2), (3, 57005)])) = some (57005, 0x00000032) := by decide +kernel

/-! ### The bus, the status and reset (sections 2.6 and 2.7) -/

theorem test_read_constants :
    Block.reset.busRead 1 0 = 0x4D5A4901 ∧ Block.reset.busRead 1 1 = 0x00100001 ∧ Block.reset.busRead 8 1 = 0x00100008 ∧
    Block.reset.busRead 256 1 = 0x00100100 ∧ Block.reset.busRead 1 0x1F00 = 0 := by decide
theorem test_write_constants_ignored :
    Block.reset.busWrite 1 0 0xFFFFFFFF = Block.reset ∧ Block.reset.busWrite 1 1 0 = Block.reset := by decide
theorem test_write_ctrl : (Block.reset.busWrite 1 2 0x7FFFFFFF).busRead 1 2 = 0x00000001 := by decide
theorem test_write_operand_words :
    ((Block.reset.busWrite 2 0x1000 0xCAFEF00D).busWrite 2 0x1001 1).reg 0 = 7700672525 ∧
    (((Block.reset.busWrite 2 0x1000 0xCAFEF00D).busWrite 2 0x1001 1).busWrite 2 0x1000 2).reg 0 = 0x100000002 ∧
    (Block.reset.busWrite 1 0x1F00 5).reg 15 = 5 ∧ Block.reset.busWrite 1 0x1001 1 = Block.reset := by decide +kernel
theorem test_command_life :
    let b := (loaded [(0, 48), (1, 18)]).busWrite 1 2 1
    let accepted := b.busWrite 1 4 0x00010201
    let lost := (accepted.busWrite 1 0x1200 0x63).busWrite 1 4 0x00010301
    accepted.statusWord = 0x00000001 ∧ lost.statusWord = 0x00000101 ∧ lost.cmdreg = 0x00010201 ∧ lost.reg 2 = 0 ∧
    blockAfter (stepAt 1 0 ⟨lost, [], 0⟩) = some ((lost.setReg 2 6).finish .ok .zero) := by decide +kernel
theorem test_completion_raises_irq :
    (blockAfter (stepAt 1 0 ⟨((loaded [(0, 48), (1, 18)]).busWrite 1 2 1).inFlight 0x00010201, [], 0⟩)).map Block.irq =
      some true := by decide +kernel
theorem test_acknowledge :
    ((loaded []).finish .evenModulus .zero).statusWord = 0x00000032 ∧
    (((loaded []).finish .evenModulus .zero).busWrite 1 3 0x00000002).statusWord = 0x00000030 := by decide
theorem test_illegal_word_before_operands :
    (blockAfter (stepAt 1 0 (busy [(0, 2)] 0x01210502))).map Block.statusWord = some 0x00000012 := by decide +kernel
theorem test_soft_reset_while_busy :
    blockAfter (stepAt 1 0 ((busy [(0, 2), (1, 1520), (2, 2357)] 0x00210502).withTurn (.busWrite 2 0x80000001))) =
      some Block.reset := by decide +kernel
theorem test_fetchWord_runs : seen 2 (step ((idle [(0, 48), (1, 18)]).withFetchWord 32 0x00010201)) = some (6, 0x00000002) := by
  decide +kernel
/-- The ends of a window at 0x8000: the last word, the bytes around it, and the addresses on either side (R60, R66). -/
theorem test_bridge_window_ends :
    (bridgeAdmit 0x8000 0xFFFC 4).toOption = some 0x1FFF ∧ (bridgeAdmit 0x8000 0x8000 4).toOption = some 0 ∧
    (Turn.bridgeRead 0xFFFF 4).kind 0x8000 = .error .bridgeBusError ∧ (Turn.bridgeRead 0xFFFC 2).kind 0x8000 = .error .bridgeBusError ∧
    (Turn.bridgeRead 0x10000 4).kind 0x8000 = .error .outsideWindow ∧ (Turn.bridgeRead 0x7FFC 4).kind 0x8000 = .error .outsideWindow :=
  ⟨by decide, by decide, rfl, rfl, rfl, rfl⟩
/-- Bytes of a little-endian integer in host memory make the word (R65). -/
theorem test_bridge_lanes : wordOfBytes [0x0D, 0xF0, 0xFE, 0xCA] = 0xCAFEF00D ∧ bytesOfWord 0xCAFEF00D = [0x0D, 0xF0, 0xFE, 0xCA] := by
  decide
/-- Trace of the radix-2 loop, steps 1, 9 and 32 (section 2.4), and the counts of section 2.1. -/
theorem test_reference_procedures :
    addShift 2035 2084 2357 1 = 1042 ∧ addShift 2035 2084 2357 9 = 3228 ∧ addShift 2035 2084 2357 32 = 1782 ∧
    euclidSteps 2971215073 1836311903 = 45 ∧ euclidSteps 18 48 = 4 ∧ jacobiIter 1001 9907 = -1 := by decide +kernel

/-! ### Witnesses: states and operands that meet the hypotheses of the statements -/

theorem witness_DecodedWordIsItsEncoding : ∃ c i, decode c = .cmd i := ⟨0x00FFFF02, .modexp 15 15 15 15, by decide⟩

theorem witness_LegalWordsSelectTheirRow :
    ∃ c i r, decode c = .cmd i ∧ r ∈ opRows ∧ r.selects c = true := ⟨0x00F00F05, .montr2 15 15, ⟨"MONTR2", 0xFF0FF0FF, 5⟩, by decide⟩

theorem witness_ResetLeavesEverythingZero : (0x80000001#32)[31] = true := by decide

theorem witness_StepKeepsRangeAndStatusConsistency :
    ∃ s t : State, s.Inv ∧ s.block.busy = true ∧ step s = .next t := by
  obtain ⟨t, ht⟩ := step_next (s := busy [(0, 48), (1, 18)] 0x00010201) (k := .complete) rfl
  exact ⟨busy [(0, 48), (1, 18)] 0x00010201, t, ⟨inRange_of_lt (by decide +kernel), by decide, fun _ => ⟨rfl, rfl⟩, fun _ => rfl⟩,
    rfl, ht⟩

/-- The three kinds of error code and a symbol: an illegal word, a failed MONTMUL, a successful JACOBI. -/
theorem witness_StepKeepsErrorAndSymbolTrueToCommand :
    (∃ s t : State, s.block.ErrNamesCommand ∧ s.block.SymbolNamesJacobi ∧ s.block.err = .illegalCmd ∧ step s = .next t) ∧
    (∃ s t : State, s.block.ErrNamesCommand ∧ s.block.SymbolNamesJacobi ∧ s.block.err = .evenModulus ∧ step s = .next t) ∧
    ∃ s t : State, s.block.ErrNamesCommand ∧ s.block.SymbolNamesJacobi ∧ s.block.jsym = .minusOne ∧ step s = .next t :=
  ⟨⟨⟨(loaded []).finish .illegalCmd .zero, [], 0⟩, _, ⟨.opcode, by decide⟩, fun h => absurd rfl h, rfl, rfl⟩,
   ⟨⟨((loaded []).inFlight 0x00264704).finish .evenModulus .zero, [], 0⟩, _, ⟨.montmul 7 4 6 2, by decide⟩,
      fun h => absurd rfl h, rfl, rfl⟩,
   ⟨⟨((loaded []).inFlight 0x00010303).finish .ok .minusOne, [], 0⟩, _, trivial, fun _ => ⟨3, 0, 1, by decide⟩, rfl, rfl⟩⟩

theorem witness_StepRunsTheDecodedCommand :
    ∃ s : State, s.nextKind Config.base = .ok .complete ∧ s.block.busy = true ∧ decode s.block.cmdreg = .cmd (.gcd 2 0 1) :=
  ⟨busy [] 0x00010201, rfl, rfl, by decide⟩

theorem witness_StepPerformsEachKind : (idle []).block.busy = false := rfl

theorem witness_PortStepsNeverStop : ∃ s : State, s.portOnly ∧ s.turns ≠ [] ∧ s.block.busy = true :=
  ⟨(busy [] 0x00010201).withTurn (.busRead 3), by simp [State.portOnly, State.withTurn, busy, Turn.isPort], by simp [State.withTurn], rfl⟩

/-- Each kind of reset, followed by an operand write and an engine's turn, and followed by nothing. -/
theorem witness_ResetAbandonsTheCommand :
    (∃ (s t : State) (rest : List Turn), s.block.busy = true ∧ s.turns = .port .reset :: rest ∧ step s = .next t ∧
      rest = [.port (.busWrite 0x1000 7), .port .complete] ∧
      ∀ u ∈ rest, ∃ k : StepKind, u = .port k ∧ ∀ d, k ≠ .busWrite 4 d) ∧
    ∃ (s t : State) (rest : List Turn) (d : Word), s.block.busy = true ∧ d[31] = true ∧
      s.turns = .port (.busWrite 2 d) :: rest ∧ step s = .next t ∧ rest = [] := by
  refine ⟨⟨⟨(busy [(0, 2)] 0x00210502).block, [.port .reset, .port (.busWrite 0x1000 7), .port .complete], 0⟩, _, _, rfl, rfl, rfl,
    rfl, ?_⟩, ⟨(busy [(0, 2)] 0x00210502).withTurn (.busWrite 2 0x80000000), _, _, 0x80000000, rfl, by decide, rfl, rfl, rfl⟩⟩
  intro u hu
  simp only [List.mem_cons, List.not_mem_nil, or_false] at hu
  rcases hu with rfl | rfl
  · exact ⟨_, rfl, fun d h => absurd (StepKind.busWrite.inj h).1 (by decide)⟩
  · exact ⟨_, rfl, fun d h => by cases h⟩

theorem witness_CommandAcceptedRightAfterReset : (0x80000000#32)[31] = true ∧ (0xFFFFFFFF#32)[31] = true := by decide

theorem witness_GcdWritesTheGreatestCommonDivisor :
    (0x000FFF01#32).extractLsb' 0 8 = 0x01 ∧ (0x00110201#32).extractLsb' 0 8 = 0x01 ∧ (0x01010201#32).extractLsb' 0 8 = 0x01 := by
  decide

theorem witness_ModexpWritesThePowerModulo :
    (idle [(2, 1)]).reg 2 ≠ 0 ∧ (idle []).reg 2 = 0 ∧ (0x80210502#32).extractLsb' 0 8 = 0x02 := by decide

theorem witness_JacobiWritesTheStandardSymbol : (idle [(1, 1)]).reg 1 % 2 = 1 ∧ (idle [(1, 2 ^ 32 - 1)]).reg 1 % 2 = 1 := by decide

theorem witness_JacobiCompletesByItsRule :
    (idle [(1, 1)]).reg 1 % 2 = 1 ∧ (idle []).reg 1 % 2 = 0 ∧ (idle [(1, 2)]).reg 1 % 2 = 0 ∧
    (0x00F10203#32).extractLsb' 0 8 = 0x03 := by decide

theorem witness_JacobiFollowsTheRecursion : 1 % 2 = 1 ∧ 2357 % 2 = 1 := by decide

theorem witness_JacobiIsMultiplicative : 1 % 2 = 1 ∧ 21 % 2 = 1 ∧ Nat.Prime 3 ∧ 3 % 2 = 1 :=
  ⟨rfl, rfl, Nat.prime_three, rfl⟩

theorem witness_MontmulWritesTheMontgomeryProduct :
    (idle [(2, 1)]).reg 2 % 2 = 1 ∧ (idle []).reg 2 = 0 ∧ (idle [(2, 2)]).reg 2 ≠ 0 ∧ (idle [(2, 2)]).reg 2 % 2 = 0 ∧
    (0x01264704#32).extractLsb' 0 8 = 0x04 := by decide

theorem witness_Montr2WritesTheSquaredRadix :
    (idle [(2, 1)]).reg 2 % 2 = 1 ∧ (idle []).reg 2 = 0 ∧ (idle [(2, 2)]).reg 2 ≠ 0 ∧ (idle [(2, 2)]).reg 2 % 2 = 0 ∧
    (0x00201805#32).extractLsb' 0 8 = 0x05 ∧ (0x00210805#32).extractLsb' 0 8 = 0x05 := by decide

/-- n = 1 with R⁻¹ = 0 (R155), and n = 2357 with R⁻¹ = 547 at w = 32 (section 2.4). -/
theorem witness_MontgomeryProductIdentities :
    (1 % 2 = 1 ∧ 0 < 1 ∧ 2 ^ 32 * 0 % 1 = 1 % 1) ∧ 2357 % 2 = 1 ∧ 547 < 2357 ∧ 2 ^ 32 * 547 % 2357 = 1 % 2357 := by decide

theorem witness_ModmulComputesTheModularProduct :
    (idle [(2, 2357)]).reg 2 % 2 = 1 ∧ (8 : RegIdx) ≠ 7 ∧ (8 : RegIdx) ≠ 2 ∧ (7 : RegIdx) ≠ 2 := by decide

theorem witness_TomontEntersMontgomeryForm :
    (idle [(2, 2357)]).reg 2 % 2 = 1 ∧ (8 : RegIdx) ≠ 7 ∧ (8 : RegIdx) ≠ 2 := by decide

theorem witness_JacobiIterativeFormAgrees : 1 % 2 = 1 ∧ 399 % 2 = 1 := by decide

theorem witness_MontgomerySerialLoopAgrees : 2357 % 2 = 1 ∧ 2035 < 2357 ∧ 2356 < 2357 ∧ 2035 < 2 ^ 11 ∧ 11 ≤ 11 := by decide

theorem witness_RadixSquareByDoublings : 1 ≠ 0 := by decide

theorem witness_EuclidStepsAreBounded : 2971215073 < 2 ^ 32 ∧ 2 ^ 32 - 1 < 2 ^ 32 ∧ 0 < 2 ^ 0 := by decide

theorem witness_ModexpWorkFollowsTheExponent : 2 ^ 32 - 1 < 2 ^ 32 ∧ 0 < 2 ^ 0 := by decide

theorem witness_JacobiWorkIsBounded : 9907 % 2 = 1 ∧ 9907 < 2 ^ 14 ∧ 1 % 2 = 1 ∧ 1 < 2 ^ 1 := by decide

/-- Another register than the destination, and a word of one: the frame's inner conditions. -/
theorem witness_EveryCommandCompletesWithinItsFrame :
    (1 : RegIdx) ≠ (Instr.gcd 2 0 1).dest ∧ (4 : WordIdx) ≠ 3 ∧ (∀ k, busTarget Config.words 4 ≠ .operand 2 k) ∧
    operandIdx 1 0 ≠ 3 ∧ ∀ k, busTarget Config.words (operandIdx 1 0) ≠ .operand 2 k := by
  refine ⟨by decide, by decide, (fun k h => by cases h), by decide, fun k h => ?_⟩
  rw [busTarget_operandIdx _ _ (by omega), if_pos config_words_pos] at h
  cases h

theorem witness_FailedCommandHasNoPartialEffect :
    (∃ s t : State, s.block.busy = false ∧
      runSteps 2 { s with turns := [.port (.busWrite 4 0), .port .complete] } = .next t ∧ t.block.err ≠ .ok) ∧
    ∃ s t : State, s.block.busy = false ∧
      runSteps 2 { s with turns := [.port (.busWrite 4 0x00210502), .port .complete] } = .next t ∧ t.block.err ≠ .ok :=
  ⟨⟨idle [(5, 7)], _, rfl, rfl, by decide +kernel⟩, ⟨idle [(5, 7)], _, rfl, rfl, by decide +kernel⟩⟩

theorem witness_ErrorCompletionWritesOnlyStatus : (Block.reset.busWrite 1 2 1).ie = true := by decide

theorem witness_ErrorCodeFollowsThePriority :
    (busy [] 0x01210502).nextKind Config.base = .ok .complete ∧ (busy [] 0x01210502).block.busy = true := ⟨rfl, rfl⟩

theorem witness_IllegalWordCompletesWithIllegalCmd : (idle []).block.busy = false ∧ decode 0xFFFFFFFF = .illegal .zeroField := by
  decide

theorem witness_ResultsNeverExceedTheWidth :
    ∃ s t : State, s.block.inRange 1 ∧ s.reg 0 = 2 ^ width 1 - 1 ∧ execAt 1 (.gcd 2 0 1) s = .next t :=
  ⟨idle [(0, 2 ^ 32 - 1)], _, show ∀ i, (idle [(0, 2 ^ 32 - 1)]).block.reg i < 2 ^ 32 by decide +kernel, by decide +kernel, rfl⟩

theorem witness_ResultDependsOnNamedRegistersOnly :
    (idle [(0, 48), (1, 18)]).block.agreeOn (busy [(0, 48), (1, 18), (5, 9)] 0).block (Instr.gcd 2 0 1).sources :=
  show ∀ i ∈ (Instr.gcd 2 0 1).sources, (loaded [(0, 48), (1, 18)]).reg i = ((loaded [(0, 48), (1, 18), (5, 9)]).inFlight 0).reg i
    by decide +kernel

/-- Indices at the ends of the reserved range, and a word beyond a register of one word (section 2.6). -/
theorem witness_BusReadReturnsTheWindow :
    0 < Config.words ∧ 5 ≤ (5 : WordIdx).toNat ∧ (5 : WordIdx).toNat < 0x1000 ∧ (0x0FFF : WordIdx).toNat < 0x1000 ∧
    1 ≤ (0x1001 : WordIdx).toNat % 0x100 := ⟨config_words_pos, by decide⟩

theorem witness_CmdWriteAcceptsWhenIdle :
    (idle []).block.busy = false ∧ (busy [] 0).block.busy = true ∧ decode 0 = .illegal .opcode := ⟨rfl, rfl, by decide⟩

theorem witness_OperandWriteReplacesOneWord : (idle []).block.busy = false ∧ 0 < Config.words ∧ 32 * 0 ≤ 31 ∧ 31 < 32 * 0 + 32 :=
  ⟨rfl, config_words_pos, by decide⟩

theorem witness_OperandWordReadsBackAlone : (idle []).block.busy = false ∧ 0 < Config.words ∧ (3 : WordIdx) ≠ operandIdx 0 0 :=
  ⟨rfl, config_words_pos, by decide⟩

theorem witness_WritesWhileBusyAreDiscarded : (busy [] 0).block.busy = true ∧ 0 < Config.words := ⟨rfl, config_words_pos⟩

/-- The ends of the two reserved ranges; the second is empty only at the greatest width. -/
theorem witness_ReservedWordsReadZeroIgnoreWrites :
    (0x0014 ≤ 4 * (5 : WordIdx).toNat ∧ 4 * (0x0FFF : WordIdx).toNat ≤ 0x3FFC) ∧
    ((1 ≤ 255 ∧ 4 * (0x1FFF : WordIdx).toNat = 0x4000 + 0x400 * (15 : RegIdx).val + 4 * 255)) ∧
    (Config.words = 256 ∨ Config.words ≤ 255) := ⟨by decide, by decide, by have := config_words_le; omega⟩

theorem witness_RegisterIsTheSumOfItsWords : (loaded [(0, 2 ^ 32 - 1)]).reg 0 < 2 ^ width Config.words := lt_width (by decide)

theorem witness_LoadMacroSetsTheWholeRegister :
    (idle [(0, 7)]).block.busy = false ∧ (idle [(0, 7)]).reg 0 < 2 ^ width Config.words ∧
    2 ^ width Config.words - 1 < 2 ^ width Config.words :=
  ⟨rfl, lt_width (by decide), Nat.sub_lt (by positivity) (by decide)⟩

/-- The last word carried is at offset 0x7FFC; offset 0x7FFF is inside and misaligned; offset 0x8000 is the first outside. -/
theorem witness_BridgeCarriesAlignedWordsOnly :
    4 * (0x1FFF : WordIdx).toNat = 0x7FFC ∧ (0x7FFF < 0x8000 ∧ 0x7FFF % 4 ≠ 0) ∧ (0 < 0x8000 ∧ [(0 : Byte), 0].length ≠ 4) ∧
    Config.base + 0x8000 ≤ Config.base + 0x8000 := ⟨by decide, by decide, by decide, le_refl _⟩

/-- A discarded write and a STATUS write while a command is in flight. -/
theorem witness_BusyFreezesTheOperands :
    ∃ (s t : State) (k : StepKind), s.block.busy = true ∧ s.nextKind Config.base = .ok k ∧ step s = .next t ∧ k ≠ .complete ∧
      k.resets Config.words = false ∧ k = .busWrite 4 0 :=
  ⟨(busy [(0, 48)] 0x00010201).withTurn (.busWrite 4 0), _, .busWrite 4 0, rfl, rfl, rfl, by decide, rfl, rfl⟩

/-- An accept from idle, and a completion from busy. -/
theorem witness_BusyIsSetByAcceptClearedByCompletion :
    (∃ (s t : State) (k : StepKind), s.nextKind Config.base = .ok k ∧ step s = .next t ∧ s.block.busy = false ∧ t.block.busy = true) ∧
    ∃ (s t : State) (k : StepKind), s.nextKind Config.base = .ok k ∧ step s = .next t ∧ s.block.busy = true ∧ t.block.busy = false :=
  ⟨⟨(idle []).withTurn (.busWrite 4 0), _, _, rfl, rfl, rfl, rfl⟩, ⟨busy [] 0, _, .complete, rfl, rfl, rfl, rfl⟩⟩

/-- A completion sets DONE; a write of 1 to STATUS bit 1 clears it. -/
theorem witness_DoneIsSetByEveryCompletion :
    (∃ (s t : State) (k : StepKind), s.nextKind Config.base = .ok k ∧ step s = .next t ∧ s.block.done = false ∧ t.block.done = true) ∧
    ∃ (s t : State) (k : StepKind), s.nextKind Config.base = .ok k ∧ step s = .next t ∧ s.block.done = true ∧ t.block.done = false :=
  ⟨⟨busy [] 0, _, .complete, rfl, rfl, rfl, rfl⟩,
   ⟨(⟨(loaded []).finish .ok .zero, [], 0⟩ : State).withTurn (.busWrite 3 2), _, _, rfl, rfl, rfl, rfl⟩⟩

/-- A CMD write while busy sets WBUSY; a write of 1 to STATUS bit 8 clears it. -/
theorem witness_WbusyIsSticky :
    (∃ (s t : State) (k : StepKind), s.nextKind Config.base = .ok k ∧ step s = .next t ∧ s.block.wbusy = false ∧ t.block.wbusy = true) ∧
    ∃ (s t : State) (k : StepKind), s.nextKind Config.base = .ok k ∧ step s = .next t ∧ s.block.wbusy = true ∧ t.block.wbusy = false :=
  ⟨⟨(busy [] 0).withTurn (.busWrite 4 0), _, _, rfl, rfl, rfl, rfl⟩,
   ⟨(⟨(busy [] 0).block.busWrite 1 4 0, [], 0⟩ : State).withTurn (.busWrite 3 0x100), _, _, rfl, rfl, rfl, rfl⟩⟩

/-- The first clause: a discarded CMD write, the engine's turn while an error stands. Then an accept that clears the error, and
a JACOBI completion with a symbol. -/
theorem witness_ErrAndJsymChangeOnlyWithCommands :
    (∃ (s t : State) (k : StepKind), s.nextKind Config.base = .ok k ∧ step s = .next t ∧ (s.block.busy = true → k ≠ .complete) ∧
      (s.block.busy = false → ∀ d, k ≠ .busWrite 4 d) ∧ k.resets Config.words = false ∧ k = .busWrite 4 0) ∧
    (∃ (s t : State) (k : StepKind), s.nextKind Config.base = .ok k ∧ step s = .next t ∧ (s.block.busy = true → k ≠ .complete) ∧
      (s.block.busy = false → ∀ d, k ≠ .busWrite 4 d) ∧ k.resets Config.words = false ∧ k = .complete ∧
      s.block.err = .evenModulus) ∧
    (∃ (s t : State) (k : StepKind), s.nextKind Config.base = .ok k ∧ step s = .next t ∧ s.block.busy = false ∧
      (∃ d, k = .busWrite 4 d) ∧ s.block.err = .evenModulus) ∧
    ∃ (s t : State) (k : StepKind), s.nextKind Config.base = .ok k ∧ step s = .next t ∧ k = .complete ∧ s.block.busy = true ∧
      t.block.jsym ≠ .zero :=
  ⟨⟨(busy [] 0x00010201).withTurn (.busWrite 4 0), _, _, rfl, rfl, (fun _ h => by cases h), (fun h => by cases h), rfl, rfl⟩,
   ⟨⟨(loaded []).finish .evenModulus .zero, [], 0⟩, _, _, rfl, rfl, (fun h => by cases h), (fun _ _ h => by cases h), rfl, rfl, rfl⟩,
   ⟨(⟨(loaded []).finish .evenModulus .zero, [], 0⟩ : State).withTurn (.busWrite 4 0), _, _, rfl, rfl, rfl, ⟨0, rfl⟩, rfl⟩,
   ⟨busy [(0, 2), (1, 3)] 0x00010303, _, _, rfl, rfl, rfl, rfl, by decide +kernel⟩⟩

theorem witness_DiscardedWriteDoesNotDisturbTheCommand :
    (busy [] 0x00010201).block.busy = true ∧ ∃ i n, busTarget Config.words (operandIdx 15 0) = .operand i n :=
  ⟨rfl, 15, 0, by rw [busTarget_operandIdx _ _ (by omega), if_pos config_words_pos]⟩

theorem witness_CommandCompletesAfterAnyPolling : (idle [(0, 48), (1, 18)]).block.busy = false := rfl

theorem witness_EveryCommandTerminates : (busy [] 0x00010201).block.busy = true ∧ (busy [] 0x00010201).portOnly :=
  ⟨rfl, by simp [State.portOnly, busy]⟩

end Sys2Proof.Tests
end

section
/-! PROOFS. Scope (00_scope.md): a result depends on the command's operands and W only (R9), and the machine is the parametric
one at the open width and base (R6, R60). -/

namespace Sys2Proof.Machine

/-! ### The open parameters -/

theorem width_config_bounds : 32 ≤ width Config.words ∧ width Config.words ≤ 8192 := by
  have hpos := config_words_pos
  have hle := config_words_le
  unfold width
  omega

theorem width_mod_word (words : Nat) : width words % 32 = 0 := Nat.mul_mod_right 32 words

theorem config_base_aligned : Config.base % 0x8000 = 0 := Nat.mul_mod_right 0x8000 Config.baseIndex

/-- `step` is the parametric step at the open width and base. -/
theorem stepAt_config (s : State) : stepAt Config.words Config.base s = step s := by
  have hexec : execAt Config.words = exec := funext₂ execAt_config
  rw [stepAt, hexec, step]

/-- Settles O60, from the range of the open parameters and `exec` and `step` as instances of the parametric machine. -/
theorem openWidthIsOneOfTheWidths : Obligations.OpenWidthIsOneOfTheWidths := by
  obtain ⟨hlow, hhigh⟩ := width_config_bounds
  exact ⟨⟨config_words_pos, config_words_le, hlow, hhigh, width_mod_word _, config_base_aligned⟩,
    fun i s => (execAt_config i s).symm, fun s => (stepAt_config s).symm⟩

/-! ### Noninterference -/

/-- At every width, the outcome of a command is a function of its source registers (R9). -/
theorem outcomeAt_congr (words : Nat) {s s' : State} {i : Instr} (h : s.block.agreeOn s'.block i.sources) :
    outcomeAt words s i = outcomeAt words s' i := by
  have hreg : ∀ r ∈ i.sources, s.reg r = s'.reg r := h
  -- in each case R92's list of sources holds every register that `outcomeAt` reads
  cases i <;> simp only [Instr.sources, List.forall_mem_cons] at hreg <;> simp only [outcomeAt, hreg]

/-- No command's outcome is an error with the code of success (R171). -/
theorem outcomeAt_ne_error_ok (words : Nat) (s : State) (i : Instr) : outcomeAt words s i ≠ .error .ok := by
  rcases outcomeAt_cases words s i with ⟨e, he, ho⟩ | ⟨v, ho⟩ | ⟨_, _, _, v, j, _, ho⟩
  · rw [ho]
    rintro ⟨⟩
    cases i <;> simp [raises] at he
  · simp [ho]
  · simp [ho]

/-- The error code a completion writes is the outcome's alone (R42). -/
theorem complete_err_eq (b b' : Block) (rd : RegIdx) (o : CmdOutcome) :
    (b.complete rd o).err = (b'.complete rd o).err := by
  cases o <;> rfl

/-- The symbol a completion writes is the outcome's alone (R42). -/
theorem complete_jsym_eq (b b' : Block) (rd : RegIdx) (o : CmdOutcome) :
    (b.complete rd o).jsym = (b'.complete rd o).jsym := by
  cases o <;> rfl

/-- A completion without an error leaves in the destination a value of the outcome's alone (R42). -/
theorem reg_dest_complete_eq {o : CmdOutcome} (hne : o ≠ .error .ok) {b : Block} {rd : RegIdx}
    (hok : (b.complete rd o).err = .ok) (b' : Block) : (b.complete rd o).reg rd = (b'.complete rd o).reg rd := by
  cases o with
  | value v => simp [Block.complete]
  | valueSym v j => simp [Block.complete]
  | error e =>
    have he : e = .ok := hok
    exact absurd (congrArg CmdOutcome.error he) hne

/-- Settles O39: both states complete with one outcome, and ERR, JSYM and the destination are written from it. -/
theorem resultDependsOnNamedRegistersOnly : Obligations.ResultDependsOnNamedRegistersOnly := by
  intro i s s' hagree
  have hsame := outcomeAt_congr Config.words hagree
  refine ⟨_, _, exec_eq i s, exec_eq i s', ?_⟩
  rw [← hsame]
  exact ⟨complete_err_eq _ _ _ _, complete_jsym_eq _ _ _ _,
    fun hok => reg_dest_complete_eq (outcomeAt_ne_error_ok Config.words s i) hok s'.block⟩

end Sys2Proof.Machine
end

section
/-! PROOFS. The state (10_state.md): what one step of each kind leaves in every field of the block, the invariants every step
keeps, and the life of a command from its accept to its completion. -/

namespace Sys2Proof.Machine

/-! ### Which steps reset the block -/

/-- A write resets the block exactly when it sets bit 31 of CTRL (R201). -/
@[simp] theorem resets_busWrite (words : Nat) (w : WordIdx) (d : Word) :
    (StepKind.busWrite w d).resets words = true ↔ w = 2 ∧ d[31] = true := by
  simp [StepKind.resets, busTarget_eq_ctrl]

@[simp] theorem resets_busRead (words : Nat) (w : WordIdx) : (StepKind.busRead w).resets words = false := rfl
@[simp] theorem resets_reset (words : Nat) : StepKind.reset.resets words = true := rfl
@[simp] theorem resets_complete (words : Nat) : StepKind.complete.resets words = false := rfl

/-! ### Bus writes to the control registers -/

theorem busWrite_ctrl (words : Nat) (b : Block) (d : Word) : b.busWrite words 2 d = b.writeCtrl d := rfl
theorem busWrite_status (words : Nat) (b : Block) (d : Word) : b.busWrite words 3 d = b.writeStatus d := rfl

/-- Write-one-to-clear, both bits at once (R27). -/
theorem writeStatus_eq (b : Block) (d : Word) :
    b.writeStatus d = { b with done := if d[1] then false else b.done, wbusy := if d[8] then false else b.wbusy } := by
  unfold Block.writeStatus
  cases d[1] <;> cases d[8] <;> rfl

theorem writeCmd_of_idle {b : Block} (h : b.busy = false) (d : Word) : b.writeCmd d = b.inFlight d := by
  simp [Block.writeCmd, h]

theorem writeCmd_of_busy {b : Block} (h : b.busy = true) (d : Word) : b.writeCmd d = { b with wbusy := true } := by
  simp [Block.writeCmd, h]

theorem writeOperand_of_busy {b : Block} (h : b.busy = true) (i : RegIdx) (k : Nat) (d : Word) :
    b.writeOperand i k d = { b with wbusy := true } := by
  simp [Block.writeOperand, h]

/-- While busy, a write to CMD or to a mapped operand word is discarded (R70). -/
theorem busWrite_of_busy {words : Nat} {b : Block} {w : WordIdx} (hb : b.busy = true)
    (hw : w = 4 ∨ ∃ i n, busTarget words w = .operand i n) (d : Word) :
    b.busWrite words w d = { b with wbusy := true } := by
  rcases hw with rfl | ⟨i, n, ht⟩
  · exact writeCmd_of_busy hb d
  · simp only [Block.busWrite, ht, writeOperand_of_busy hb]

/-- CMD and the operand words are neither CTRL nor STATUS (R61). -/
theorem mapped_ne_control {words : Nat} {w : WordIdx} (hw : w = 4 ∨ ∃ i n, busTarget words w = .operand i n) :
    w ≠ 2#13 ∧ w ≠ 3#13 := by
  refine ⟨?_, ?_⟩ <;> rintro rfl <;> simp at hw

/-! ### The status fields after a bus write -/

/-- A bus write leaves BUSY set when it was set or the write is an accept, and the write is no reset (R28). -/
theorem busWrite_busy (words : Nat) (b : Block) (w : WordIdx) (d : Word) :
    (b.busWrite words w d).busy = true ↔ ¬(w = 2 ∧ d[31] = true) ∧ (b.busy = true ∨ w = 4) := by
  simp only [← busTarget_eq_ctrl (words := words), ← busTarget_eq_cmd (words := words)]
  unfold Block.busWrite
  cases busTarget words w with
  | ctrl => cases h : d[31] <;> simp [Block.writeCtrl, h]
  | status => simp [writeStatus_eq]
  | cmd => cases h : b.busy <;> simp [Block.writeCmd, h]
  | operand i k => cases h : b.busy <;> simp [Block.writeOperand, h]
  | _ => simp

/-- A bus write leaves DONE set when it was set and the write is no reset, acknowledgement or accept (R29). -/
theorem busWrite_done (words : Nat) (b : Block) (w : WordIdx) (d : Word) :
    (b.busWrite words w d).done = true ↔
      b.done = true ∧ ¬(w = 2 ∧ d[31] = true) ∧ ¬(w = 3 ∧ d[1] = true) ∧ ¬(b.busy = false ∧ w = 4) := by
  simp only [← busTarget_eq_ctrl (words := words), ← busTarget_eq_status (words := words),
    ← busTarget_eq_cmd (words := words)]
  unfold Block.busWrite
  cases busTarget words w with
  | ctrl => cases h : d[31] <;> simp [Block.writeCtrl, h]
  | status => cases h : d[1] <;> simp [writeStatus_eq, h]
  | cmd => cases h : b.busy <;> simp [Block.writeCmd, h]
  | operand i k => cases h : b.busy <;> simp [Block.writeOperand, h]
  | _ => simp

/-- A bus write leaves WBUSY set when it was set or the write is a discarded one, and the write neither resets nor clears it
(R31, R70). -/
theorem busWrite_wbusy (words : Nat) (b : Block) (w : WordIdx) (d : Word) :
    (b.busWrite words w d).wbusy = true ↔
      ¬(w = 2 ∧ d[31] = true) ∧ ¬(w = 3 ∧ d[8] = true) ∧
        (b.wbusy = true ∨ b.busy = true ∧ (w = 4 ∨ ∃ i n, busTarget words w = .operand i n)) := by
  simp only [← busTarget_eq_ctrl (words := words), ← busTarget_eq_status (words := words),
    ← busTarget_eq_cmd (words := words)]
  unfold Block.busWrite
  cases busTarget words w with
  | ctrl => cases h : d[31] <;> simp [Block.writeCtrl, h]
  | status => cases h : d[8] <;> simp [writeStatus_eq, h]
  | cmd => cases h : b.busy <;> simp [Block.writeCmd, h]
  | operand i k => cases h : b.busy <;> simp [Block.writeOperand, h]
  | _ => simp

/-- A bus write that is neither a reset nor an accept leaves ERR and JSYM (R30, R32). -/
theorem busWrite_err_jsym {words : Nat} {b : Block} {w : WordIdx} {d : Word} (hr : ¬(w = 2 ∧ d[31] = true))
    (ha : ¬(b.busy = false ∧ w = 4)) :
    (b.busWrite words w d).err = b.err ∧ (b.busWrite words w d).jsym = b.jsym := by
  rcases busWrite_cases words b w d with
    h | ⟨ht, hd, -⟩ | ⟨-, -, h⟩ | ⟨-, h⟩ | ⟨ht, hb, -⟩ | ⟨-, h⟩ | ⟨_, _, -, -, -, h⟩
  · exact h.symm ▸ ⟨rfl, rfl⟩
  · exact absurd ⟨busTarget_eq_ctrl.mp ht, hd⟩ hr
  · exact h.symm ▸ ⟨rfl, rfl⟩
  · exact h.symm ▸ ⟨rfl, rfl⟩
  · exact absurd ⟨hb, busTarget_eq_cmd.mp ht⟩ ha
  · exact h.symm ▸ ⟨rfl, rfl⟩
  · exact h.symm ▸ ⟨rfl, rfl⟩

/-- While busy, a bus write that is no reset leaves the operand registers and the command in flight (R41). -/
theorem busWrite_keeps_command {words : Nat} {b : Block} {w : WordIdx} {d : Word} (hb : b.busy = true)
    (hr : ¬(w = 2 ∧ d[31] = true)) :
    (b.busWrite words w d).x = b.x ∧ (b.busWrite words w d).cmdreg = b.cmdreg ∧ (b.busWrite words w d).busy = true := by
  rcases busWrite_cases words b w d with
    h | ⟨ht, hd, -⟩ | ⟨-, -, h⟩ | ⟨-, h⟩ | ⟨-, hidle, -⟩ | ⟨-, h⟩ | ⟨_, _, -, -, hidle, -⟩
  · exact h.symm ▸ ⟨rfl, rfl, hb⟩
  · exact absurd ⟨busTarget_eq_ctrl.mp ht, hd⟩ hr
  · exact h.symm ▸ ⟨rfl, rfl, hb⟩
  · exact h.symm ▸ ⟨rfl, rfl, hb⟩
  · simp [hb] at hidle
  · exact h.symm ▸ ⟨rfl, rfl, hb⟩
  · simp [hb] at hidle

/-! ### One step of a known kind -/

/-- The block after the engine's turn: the completion of the word in CMDREG when BUSY = 1, nothing when BUSY = 0 (R42). -/
def Block.engineTurn (b : Block) : Block :=
  if b.busy then
    match decode b.cmdreg with
    | .cmd i => b.complete i.dest (outcomeAt Config.words ⟨b, [], 0⟩ i)
    | .illegal _ => b.takeError .illegalCmd
  else b

theorem engineTurn_cmd {b : Block} {i : Instr} (hb : b.busy = true) (hd : decode b.cmdreg = .cmd i) :
    b.engineTurn = b.complete i.dest (outcomeAt Config.words ⟨b, [], 0⟩ i) := by
  simp [Block.engineTurn, hb, hd]

theorem engineTurn_illegal {b : Block} {why : Illegal} (hb : b.busy = true) (hd : decode b.cmdreg = .illegal why) :
    b.engineTurn = b.takeError .illegalCmd := by
  simp [Block.engineTurn, hb, hd]

theorem engineTurn_idle {b : Block} (hb : b.busy = false) : b.engineTurn = b := by
  simp [Block.engineTurn, hb]

/-- The engine's turn leaves the block alone when it is idle; otherwise it completes with some outcome, for some
destination. -/
theorem engineTurn_cases (b : Block) :
    (b.busy = false ∧ b.engineTurn = b) ∨ (b.busy = true ∧ ∃ rd o, b.engineTurn = b.complete rd o) := by
  cases hb : b.busy with
  | false => exact .inl ⟨rfl, engineTurn_idle hb⟩
  | true =>
    cases hd : decode b.cmdreg with
    | cmd i => exact .inr ⟨rfl, _, _, engineTurn_cmd hb hd⟩
    | illegal why => exact .inr ⟨rfl, 0, .error .illegalCmd, engineTurn_illegal hb hd⟩

/-- After the engine's turn the block is idle (R42). -/
@[simp] theorem engineTurn_busy (b : Block) : b.engineTurn.busy = false := by
  rcases engineTurn_cases b with ⟨hb, h⟩ | ⟨hb, rd, o, h⟩ <;> simp [h, hb]

/-- The engine's turn sets DONE when it completes a command (R29). -/
@[simp] theorem engineTurn_done (b : Block) : b.engineTurn.done = (b.busy || b.done) := by
  rcases engineTurn_cases b with ⟨hb, h⟩ | ⟨hb, rd, o, h⟩ <;> simp [h, hb]

@[simp] theorem engineTurn_wbusy (b : Block) : b.engineTurn.wbusy = b.wbusy := by
  rcases engineTurn_cases b with ⟨-, h⟩ | ⟨-, rd, o, h⟩ <;> simp [h]

/-- WBUSY is no part of what a completion reads or writes (R42). -/
theorem engineTurn_set_wbusy (b : Block) (v : Bool) :
    ({ b with wbusy := v } : Block).engineTurn = { b.engineTurn with wbusy := v } := by
  unfold Block.engineTurn
  split
  · cases decode b.cmdreg with
    | illegal why => rfl
    | cmd i =>
      have hsame : outcomeAt Config.words ⟨{ b with wbusy := v }, [], 0⟩ i = outcomeAt Config.words ⟨b, [], 0⟩ i :=
        outcomeAt_congr _ fun _ _ => rfl
      simp only [hsame]
      cases outcomeAt Config.words ⟨b, [], 0⟩ i <;> rfl
  · rfl

/-- The block after a step of each kind (R40). -/
def Block.after (b : Block) : StepKind → Block
  | .busWrite w d => b.busWrite Config.words w d
  | .busRead _ => b
  | .reset => Block.reset
  | .complete => b.engineTurn

/-- The read-data output after a step of each kind: a read's value, otherwise 0 (R77). -/
def Block.outputAfter (b : Block) : StepKind → Word
  | .busRead w => b.busRead Config.words w
  | _ => 0

/-- A CMD write to an idle block is an accept (R33). -/
theorem after_accept {b : Block} (hb : b.busy = false) (d : Word) : b.after (.busWrite 4 d) = b.inFlight d :=
  writeCmd_of_idle hb d

/-- A step performs the kind that comes next, its turn used up. -/
theorem step_eq_performStep {s : State} {k : StepKind} (hk : s.nextKind Config.base = .ok k) :
    step s = performStep Config.words exec k s.beginStep := by
  simp only [step, stepWith, hk]

/-- A step whose kind is known, as an equation (R40). -/
theorem step_eq_after {s : State} {k : StepKind} (hk : s.nextKind Config.base = .ok k) :
    step s = .next ⟨s.block.after k, s.turns.tail, s.block.outputAfter k⟩ := by
  rw [step_eq_performStep hk]
  cases k with
  | complete =>
    cases hb : s.block.busy with
    | false => rw [Block.after, engineTurn_idle hb]; exact completeStep_idle (s := s.beginStep) hb
    | true =>
      cases hd : decode s.block.cmdreg with
      | cmd i =>
        have hsame : outcomeAt Config.words ⟨s.block, [], 0⟩ i = outcomeAt Config.words s.beginStep i :=
          outcomeAt_congr _ fun _ _ => rfl
        rw [Block.after, engineTurn_cmd hb hd, hsame]
        exact (completeStep_cmd (s := s.beginStep) hb hd).trans (exec_eq i _)
      | illegal why =>
        rw [Block.after, engineTurn_illegal hb hd]
        exact completeStep_illegal (s := s.beginStep) hb hd
  | _ => rfl

/-- The block after a step whose kind is known. -/
theorem step_block {s t : State} {k : StepKind} (hk : s.nextKind Config.base = .ok k) (h : step s = .next t) :
    t.block = s.block.after k := by
  rw [step_eq_after hk, Host.Outcome.next.injEq] at h
  rw [← h]

/-- A step that answers a next state had a kind. -/
theorem nextKind_of_step {s t : State} (h : step s = .next t) : ∃ k, s.nextKind Config.base = .ok k := by
  unfold step stepWith at h
  split at h
  · cases h
  · exact ⟨_, ‹_›⟩

/-- A run whose first turn is a step at the port. -/
theorem runSteps_port (b : Block) (k : StepKind) (ts : List Turn) (r : Word) (n : Nat) :
    runSteps (n + 1) ⟨b, .port k :: ts, r⟩ = runSteps n ⟨b.after k, ts, b.outputAfter k⟩ :=
  runSteps_succ (step_eq_after rfl) n

/-! ### Invariants of every step -/

theorem inRange_reset (words : Nat) : Block.reset.inRange words := fun i => by
  rw [reg_reset]
  positivity

theorem inRange_setReg {words : Nat} {b : Block} (h : b.inRange words) (i : RegIdx) {v : Nat} (hv : v < 2 ^ width words) :
    (b.setReg i v).inRange words := by
  intro j
  rw [reg_setReg]
  split
  · exact hv
  · exact h j

theorem inRange_complete {words : Nat} {b : Block} {o : CmdOutcome} (h : b.inRange words) (ho : o.inRange words)
    (rd : RegIdx) : (b.complete rd o).inRange words := by
  cases o with
  | value v => exact inRange_setReg h rd ho
  | valueSym v j => exact inRange_setReg h rd ho
  | error e => exact h

theorem inRange_busWrite {words : Nat} {b : Block} (h : b.inRange words) (w : WordIdx) (d : Word) :
    (b.busWrite words w d).inRange words := by
  rcases busWrite_cases words b w d with
    hw | ⟨-, -, hw⟩ | ⟨-, -, hw⟩ | ⟨-, hw⟩ | ⟨-, -, hw⟩ | ⟨-, hw⟩ | ⟨i, k, -, hk, -, hw⟩ <;> rw [hw]
  · exact h
  · exact inRange_reset words
  · exact h
  · exact h
  · exact h
  · exact h
  · exact inRange_setReg h i (setWord_lt hk (h i) d)

theorem inRange_engineTurn {b : Block} (h : b.inRange Config.words) : b.engineTurn.inRange Config.words := by
  unfold Block.engineTurn
  split
  · cases decode b.cmdreg with
    | cmd i => exact inRange_complete h (outcomeAt_inRange (s := ⟨b, [], 0⟩) h i) i.dest
    | illegal why => exact h
  · exact h

/-- A step of any kind keeps the registers below 2^W (R22). -/
theorem inRange_after {b : Block} (h : b.inRange Config.words) (k : StepKind) : (b.after k).inRange Config.words := by
  cases k with
  | busWrite w d => exact inRange_busWrite h w d
  | busRead w => exact h
  | reset => exact inRange_reset _
  | complete => exact inRange_engineTurn h

theorem consistent_reset : Block.reset.Consistent := ⟨by simp, by simp, by simp⟩

/-- A completion leaves an idle block, and a symbol only without an error (R42, R177). -/
theorem consistent_complete (b : Block) (rd : RegIdx) (o : CmdOutcome) : (b.complete rd o).Consistent := by
  refine ⟨by simp, by simp, ?_⟩
  cases o <;> simp [Block.complete]

theorem consistent_inFlight (b : Block) (d : Word) : (b.inFlight d).Consistent := ⟨by simp, by simp, by simp⟩

/-- Consistency survives a change of the other fields and a clearing of DONE. -/
theorem Block.Consistent.mono {b b' : Block} (h : b.Consistent) (hbusy : b'.busy = b.busy)
    (hdone : b'.done = true → b.done = true) (herr : b'.err = b.err) (hjsym : b'.jsym = b.jsym) : b'.Consistent where
  notBusyAndDone := fun hbd => h.notBusyAndDone ⟨hbusy ▸ hbd.1, hdone hbd.2⟩
  busyClears := fun hb => by
    rw [herr, hjsym]
    exact h.busyClears (hbusy ▸ hb)
  errorClearsSymbol := fun he => by
    rw [hjsym]
    exact h.errorClearsSymbol (herr ▸ he)

theorem consistent_busWrite {words : Nat} {b : Block} (h : b.Consistent) (w : WordIdx) (d : Word) :
    (b.busWrite words w d).Consistent := by
  rcases busWrite_cases words b w d with
    hw | ⟨-, -, hw⟩ | ⟨-, -, hw⟩ | ⟨-, hw⟩ | ⟨-, -, hw⟩ | ⟨-, hw⟩ | ⟨_, _, -, -, -, hw⟩ <;> rw [hw]
  · exact h
  · exact consistent_reset
  · exact h.mono rfl id rfl rfl
  · exact h.mono rfl (fun hd => (Bool.and_eq_true_iff.mp hd).1) rfl rfl
  · exact consistent_inFlight b d
  · exact h.mono rfl id rfl rfl
  · exact h.mono rfl id rfl rfl

/-- A step of any kind keeps the status fields consistent (R29, R33, R177). -/
theorem consistent_after {b : Block} (h : b.Consistent) (k : StepKind) : (b.after k).Consistent := by
  cases k with
  | busWrite w d => exact consistent_busWrite h w d
  | busRead w => exact h
  | reset => exact consistent_reset
  | complete =>
    rcases engineTurn_cases b with ⟨_, he⟩ | ⟨_, rd, o, he⟩
    · rw [Block.after, he]; exact h
    · rw [Block.after, he]; exact consistent_complete b rd o

/-- Settles O8: the block after a step of each kind is in range and consistent. -/
theorem stepKeepsRangeAndStatusConsistency : Obligations.StepKeepsRangeAndStatusConsistency := by
  intro s t hinv h
  obtain ⟨k, hk⟩ := nextKind_of_step h
  have hblock := step_block hk h
  exact ⟨hblock ▸ inRange_after hinv.inRange k, hblock ▸ consistent_after hinv.consistent k⟩

/-- Settles O7: after reset every register is 0, the block is idle and ERR and JSYM are clear. -/
theorem resetMeetsTheInvariants : Obligations.ResetMeetsTheInvariants :=
  ⟨⟨inRange_reset _, consistent_reset⟩, trivial, fun h => absurd rfl h⟩

/-- Settles O38: the outcome's value is in range, and it is all that a completion writes to a register. -/
theorem resultsNeverExceedTheWidth : Obligations.ResultsNeverExceedTheWidth := by
  intro words i s t hin h
  rw [execAt_eq, Host.Outcome.next.injEq] at h
  rw [← h]
  exact inRange_complete hin (outcomeAt_inRange hin i) i.dest

/-! ### The frame of a command -/

/-- A completion leaves every word of the window but STATUS and the destination's words (R42). -/
theorem busRead_complete {words : Nat} {rd : RegIdx} {w : WordIdx} (hstatus : w ≠ 3)
    (hdest : ∀ k, busTarget words w ≠ .operand rd k) (b : Block) (o : CmdOutcome) :
    (b.complete rd o).busRead words w = b.busRead words w := by
  unfold Block.busRead
  cases ht : busTarget words w with
  | status => exact absurd (busTarget_eq_status.mp ht) hstatus
  | ctrl => simp [Block.ctrlWord]
  | cmd => simp
  | operand i k =>
    have hne : rd ≠ i := by
      rintro rfl
      exact hdest k ht
    simp [reg_complete_of_ne hne]
  | _ => rfl

/-- Settles O33, from the completion that `exec` is. -/
theorem everyCommandCompletesWithinItsFrame : Obligations.EveryCommandCompletesWithinItsFrame := by
  intro i s
  exact ⟨_, exec_eq i s, complete_busy _ _ _, complete_done _ _ _, fun j hj => reg_complete_of_ne hj.symm _ _,
    complete_ie _ _ _, complete_wbusy _ _ _, complete_cmdreg _ _ _, rfl, rfl,
    fun w hw hdest => busRead_complete hw hdest _ _⟩

/-! ### The status fields over a step -/

/-- Settles O51: of the steps that are neither a completion nor a reset, only a bus write touches the block. -/
theorem busyFreezesTheOperands : Obligations.BusyFreezesTheOperands := by
  intro s t k hb hk h hnc hnr
  rw [step_block hk h]
  cases k with
  | busWrite w d =>
    rw [← Bool.not_eq_true, resets_busWrite] at hnr
    exact busWrite_keeps_command hb hnr
  | busRead w => exact ⟨rfl, rfl, hb⟩
  | reset => cases hnr
  | complete => exact absurd rfl hnc

/-- How a flag moves when it is 1 after a step exactly if the step set it or did not clear it. -/
theorem flag_set_clear {before after : Bool} {sets clears : Prop}
    (h : after = true ↔ sets ∨ before = true ∧ ¬clears) (hdisjoint : sets → ¬clears) :
    (before = false → (after = true ↔ sets)) ∧ (before = true → (after = false ↔ clears)) := by
  refine ⟨?_, ?_⟩ <;> rintro rfl
  · simpa using h
  · rw [← Bool.not_eq_true, h]
    tauto

/-- BUSY after a step of each kind (R28). -/
theorem after_busy (b : Block) (k : StepKind) :
    (b.after k).busy = true ↔
      (∃ d, k = .busWrite 4 d) ∨ b.busy = true ∧ ¬(k = .complete ∨ k.resets Config.words = true) := by
  cases k with
  | busWrite w d =>
    have hcmd : w = 4 → ¬w = 2 := by rintro rfl; decide
    simp only [Block.after, busWrite_busy, resets_busWrite, StepKind.busWrite.injEq, reduceCtorEq, false_or,
      exists_and_left, exists_eq', and_true]
    tauto
  | _ => simp [Block.after]

/-- DONE after a step of each kind (R29). -/
theorem after_done (b : Block) (k : StepKind) :
    (b.after k).done = true ↔
      (k = .complete ∧ b.busy = true) ∨
        b.done = true ∧ ¬((∃ d : Word, k = .busWrite 3 d ∧ d[1] = true) ∨ (b.busy = false ∧ ∃ d, k = .busWrite 4 d) ∨
          k.resets Config.words = true) := by
  cases k with
  | busWrite w d =>
    simp only [Block.after, busWrite_done, resets_busWrite, StepKind.busWrite.injEq, reduceCtorEq, false_and, false_or,
      and_assoc, exists_and_left, exists_eq', exists_eq_left', and_true]
    tauto
  | _ => simp [Block.after]

/-- DONE and BUSY stay exclusive (R29): an accept clears DONE, a completion clears BUSY. -/
theorem notBusyAndDone_after {b : Block} (k : StepKind) (h : ¬(b.busy = true ∧ b.done = true)) :
    ¬((b.after k).busy = true ∧ (b.after k).done = true) := by
  cases k with
  | busWrite w d =>
    simp only [Block.after, busWrite_busy, busWrite_done, ← Bool.not_eq_true]
    tauto
  | busRead w => exact h
  | _ => simp [Block.after]

/-- WBUSY after a step of each kind (R31). -/
theorem after_wbusy (b : Block) (k : StepKind) :
    (b.after k).wbusy = true ↔
      (b.busy = true ∧ ∃ w d, k = .busWrite w d ∧ (w = 4 ∨ ∃ i n, busTarget Config.words w = .operand i n)) ∨
        b.wbusy = true ∧ ¬((∃ d : Word, k = .busWrite 3 d ∧ d[8] = true) ∨ k.resets Config.words = true) := by
  cases k with
  | busWrite w d =>
    have hctrl := mapped_ne_control (words := Config.words) (w := w)
    simp only [Block.after, busWrite_wbusy, resets_busWrite, StepKind.busWrite.injEq, and_assoc, exists_and_left,
      exists_eq_left']
    grind
  | _ => simp [Block.after]

/-- Settles O52, from BUSY after a step of each kind. -/
theorem busyIsSetByAcceptClearedByCompletion : Obligations.BusyIsSetByAcceptClearedByCompletion := by
  intro s t k hk h
  rw [step_block hk h]
  refine flag_set_clear (after_busy s.block k) ?_
  rintro ⟨d, rfl⟩
  simp

/-- Settles O53, from DONE and BUSY after a step of each kind. -/
theorem doneIsSetByEveryCompletion : Obligations.DoneIsSetByEveryCompletion := by
  intro s t k hk h
  rw [step_block hk h]
  have hmoves := flag_set_clear (after_done s.block k) fun hc => by simp [hc.1, hc.2]
  exact ⟨hmoves.1, hmoves.2, notBusyAndDone_after k⟩

/-- Settles O54, from WBUSY after a step of each kind. -/
theorem wbusyIsSticky : Obligations.WbusyIsSticky := by
  intro s t k hk h
  rw [step_block hk h]
  refine flag_set_clear (after_wbusy s.block k) ?_
  rintro ⟨-, w, d, rfl, hw⟩
  obtain ⟨h2, h3⟩ := mapped_ne_control hw
  simp [h2, h3]

/-- A step that is neither a completion, an accept nor a reset leaves ERR and JSYM (R30, R32). -/
theorem after_err_jsym {b : Block} {k : StepKind} (hc : b.busy = true → k ≠ .complete)
    (ha : b.busy = false → ∀ d, k ≠ .busWrite 4 d) (hr : k.resets Config.words = false) :
    (b.after k).err = b.err ∧ (b.after k).jsym = b.jsym := by
  cases k with
  | busWrite w d =>
    rw [← Bool.not_eq_true, resets_busWrite] at hr
    exact busWrite_err_jsym hr fun ⟨hb, hw⟩ => ha hb d (hw ▸ rfl)
  | busRead w => exact ⟨rfl, rfl⟩
  | reset => cases hr
  | complete =>
    have hb : b.busy = false := by
      rw [← Bool.not_eq_true]
      exact fun hb => hc hb rfl
    rw [Block.after, engineTurn_idle hb]
    exact ⟨rfl, rfl⟩

/-- Only JACOBI's completion leaves a symbol, and it leaves no error (R32). -/
theorem engineTurn_jsym {b : Block} (hb : b.busy = true) (hj : b.engineTurn.jsym ≠ .zero) :
    b.engineTurn.err = .ok ∧ ∃ rd ra rn, decode b.cmdreg = .cmd (.jacobi rd ra rn) := by
  cases hd : decode b.cmdreg with
  | illegal why => exact absurd (by rw [engineTurn_illegal hb hd]; rfl) hj
  | cmd i =>
    rw [engineTurn_cmd hb hd] at hj ⊢
    rcases outcomeAt_cases Config.words ⟨b, [], 0⟩ i with ⟨e, _, ho⟩ | ⟨v, ho⟩ | ⟨rd, ra, rn, v, j, rfl, ho⟩
    · exact absurd (by rw [ho]; rfl) hj
    · exact absurd (by rw [ho]; rfl) hj
    · exact ⟨by rw [ho]; rfl, rd, ra, rn, rfl⟩

/-- Settles O55: a clause each for the other steps, the accept and the completion. -/
theorem errAndJsymChangeOnlyWithCommands : Obligations.ErrAndJsymChangeOnlyWithCommands := by
  intro s t k hk h
  rw [step_block hk h]
  refine ⟨after_err_jsym, ?_, ?_⟩
  · rintro hb ⟨d, rfl⟩
    rw [after_accept hb]
    exact ⟨rfl, rfl⟩
  · rintro rfl hb hj
    exact engineTurn_jsym hb hj

/-! ### From accept to completion -/

/-- A command's encoding decodes to it (R94). -/
theorem decode_encode (i : Instr) : decode (encode i) = .cmd i := by
  rw [decode, encode, cutFields_packFields]
  cases i <;> rfl

/-- Settles O57: the discarded write only sets WBUSY, which no completion reads or writes. -/
theorem discardedWriteDoesNotDisturbTheCommand : Obligations.DiscardedWriteDoesNotDisturbTheCommand := by
  intro s w d hb hw
  refine ⟨_, _, (runSteps_port s.block (.busWrite w d) _ _ 1).trans (runSteps_port _ .complete [] _ 0),
    runSteps_port s.block .complete [] _ 0, ?_⟩
  simp only [Block.after, busWrite_of_busy hb hw]
  exact engineTurn_set_wbusy s.block true

/-- The engine's turn on a command in flight is `exec` of it (R42). -/
theorem step_complete_eq_exec {s : State} {i : Instr} (hk : s.nextKind Config.base = .ok .complete)
    (hb : s.block.busy = true) (hd : decode s.block.cmdreg = .cmd i) : step s = exec i s.beginStep :=
  (step_eq_performStep hk).trans (completeStep_cmd (s := s.beginStep) hb hd)

/-- With a command in flight, reads do not matter: after any number of them the engine's turn is `exec` of the command. -/
theorem runSteps_polls_complete {b : Block} {i : Instr} (hb : b.busy = true) (hd : decode b.cmdreg = .cmd i) (w : WordIdx)
    (polls : Nat) (r : Word) :
    runSteps (polls + 1) ⟨b, List.replicate polls (.port (.busRead w)) ++ [.port .complete], r⟩ = exec i ⟨b, [], 0⟩ := by
  induction polls generalizing r with
  | zero =>
    have hstep : step ⟨b, [.port .complete], r⟩ = exec i ⟨b, [], 0⟩ := step_complete_eq_exec rfl hb hd
    rw [exec_eq] at hstep ⊢
    exact runSteps_succ hstep 0
  | succ n ih => exact (runSteps_port b (.busRead w) _ r (n + 1)).trans (ih _)

/-- Settles O58: the accept puts the command in flight, and the polls do not matter. -/
theorem commandCompletesAfterAnyPolling : Obligations.CommandCompletesAfterAnyPolling := by
  intro s i polls hb
  rw [runSteps_port, after_accept hb]
  exact runSteps_polls_complete (inFlight_busy _ _) (decode_encode i) 3 polls _

/-! ### Reset, the step of each kind, and the machine at the port -/

/-- Settles O6. Any reset, by its step or by a write to CTRL, leaves `Block.reset`; ID and PARAM are read from no field. -/
theorem resetLeavesEverythingZero : Obligations.ResetLeavesEverythingZero := by
  exact ⟨reg_reset, rfl, rfl, rfl, rfl, rfl, rfl, rfl, rfl, fun s => ⟨_, step_withTurn_reset s, rfl⟩,
    fun s d hd => ⟨_, step_withTurn_busWrite s 2 d, if_pos hd⟩, fun b => ⟨rfl, rfl⟩⟩

/-- Settles O10: the step performs the engine's turn, which is `exec` of the word in CMDREG. -/
theorem stepRunsTheDecodedCommand : Obligations.StepRunsTheDecodedCommand :=
  fun _ _ hk hb hd => step_complete_eq_exec hk hb hd

/-- A word placed for the next step is the word itself. -/
theorem withFetchWord_toNat (s : State) (c : Word) :
    s.withFetchWord 32 c.toNat = { s with block := s.block.inFlight c, turns := .port .complete :: s.turns } := by
  rw [State.withFetchWord, Nat.mod_eq_of_lt c.isLt, BitVec.ofNat_toNat, BitVec.setWidth_eq]

/-- Settles O11: the placed word is in flight, and it decodes to the command. -/
theorem placedWordRunsNext : Obligations.PlacedWordRunsNext := by
  intro s i
  rw [withFetchWord_toNat]
  exact step_complete_eq_exec rfl rfl (decode_encode i)

/-- Settles O12: the step performs the turn in front. -/
theorem stepPerformsEachKind : Obligations.StepPerformsEachKind :=
  fun s => ⟨step_withTurn_busWrite s, step_withTurn_busRead s, step_withTurn_reset s,
    fun hb => (step_eq_performStep (s := s.withTurn .complete) rfl).trans
      (completeStep_idle (s := { s with rdata := 0 }) hb)⟩

/-- With every turn at the port, the next step has a kind (R40). -/
theorem nextKind_of_portOnly {s : State} (h : s.portOnly) : ∃ k, s.nextKind Config.base = .ok k := by
  obtain ⟨b, turns, r⟩ := s
  match turns with
  | [] => exact ⟨.complete, rfl⟩
  | .port k :: _ => exact ⟨k, rfl⟩
  | .bridgeWrite addr bytes :: _ => cases h _ List.mem_cons_self
  | .bridgeRead addr len :: _ => cases h _ List.mem_cons_self

/-- Settles O13: a step at the port answers, and the turns left are some of those there were. -/
theorem portStepsNeverStop : Obligations.PortStepsNeverStop := by
  intro s hport
  obtain ⟨k, hk⟩ := nextKind_of_portOnly hport
  exact ⟨_, step_eq_after hk, fun u hu => hport u (List.mem_of_mem_tail hu)⟩

/-! ### The control registers -/

/-- The number of a word made of two parts. -/
theorem toNat_append_eq_add {m n : Nat} (x : BitVec m) (y : BitVec n) :
    (x ++ y).toNat = 2 ^ n * x.toNat + y.toNat := by
  rw [BitVec.toNat_append, Nat.shiftLeft_eq, mul_comm, Nat.two_pow_add_eq_or_of_lt y.isLt]

/-- STATUS as the sum of its fields (R27). -/
theorem statusWord_toNat (b : Block) :
    b.statusWord.toNat =
      b.busy.toNat + 2 * b.done.toNat + 2 ^ 4 * b.err.code.toNat + 2 ^ 8 * b.wbusy.toNat + 2 ^ 12 * b.jsym.code.toNat := by
  simp only [Block.statusWord, toNat_append_eq_add, BitVec.toNat_ofNat, BitVec.toNat_ofBool]
  omega

theorem ctrlWord_toNat (b : Block) : b.ctrlWord.toNat = b.ie.toNat := by
  cases h : b.ie <;> simp [Block.ctrlWord, h]

/-- Settles O41, from the STATUS word as a sum and write-one-to-clear as an equation. -/
theorem statusLayoutAndWriteOneToClear : Obligations.StatusLayoutAndWriteOneToClear :=
  ⟨rfl, ⟨rfl, rfl, rfl⟩, fun s => ⟨_, step_withTurn_busRead s 3, rfl⟩,
    fun b => ⟨statusWord_toNat b, fun d => (busWrite_status _ b d).trans (writeStatus_eq b d)⟩⟩

/-- Settles O42: index 2 is CTRL, whose word holds IE alone. -/
theorem ctrlWriteSetsEnableOrResets : Obligations.CtrlWriteSetsEnableOrResets :=
  ⟨rfl, fun b d => ⟨busWrite_ctrl _ b d, ctrlWord_toNat b⟩⟩

/-- An illegal word written to CMD of an idle block completes with ILLEGAL_CMD (R172). -/
theorem runSteps_illegal {b : Block} {d : Word} {why : Illegal} (hb : b.busy = false) (hd : decode d = .illegal why)
    (r : Word) :
    runSteps 2 ⟨b, [.port (.busWrite 4 d), .port .complete], r⟩ =
      .next ⟨(b.inFlight d).takeError .illegalCmd, [], 0⟩ := by
  rw [runSteps_port, runSteps_port, after_accept hb, Block.after, engineTurn_illegal (inFlight_busy _ _) hd]
  rfl

/-- Settles O43, from the CMD write when idle and when busy. -/
theorem cmdWriteAcceptsWhenIdle : Obligations.CmdWriteAcceptsWhenIdle :=
  ⟨rfl, fun s d => ⟨fun hb => writeCmd_of_idle hb d, fun _ hb hd => ⟨_, runSteps_illegal hb hd s.rdata, rfl⟩,
    fun hb => writeCmd_of_busy hb d, _, step_withTurn_busRead s 4, rfl, rfl⟩⟩

/-- Settles O56: `irq` is the conjunction of the two bits. -/
theorem interruptIsEnableAndDone : Obligations.InterruptIsEnableAndDone := fun _ => Bool.and_eq_true_iff

end Sys2Proof.Machine
end

section
/-! PROOFS. The bus window (20_memory.md): what an access at each index of it reads and writes, the words of a register as
its digits, and the accesses a bridge carries or refuses. -/

namespace Sys2Proof.Machine

/-! ### Operand words -/

/-- Every word of a register has an index in the window (R62). -/
theorem busTarget_operandIdx_of_lt (i : RegIdx) {k : Nat} (hk : k < Config.words) :
    busTarget Config.words (operandIdx i k) = .operand i k := by
  have hle := config_words_le
  rw [busTarget_operandIdx _ _ (by omega), if_pos hk]

/-- A read at an operand word's index returns the word (R67). -/
theorem busRead_operandIdx (b : Block) (i : RegIdx) {k : Nat} (hk : k < Config.words) :
    b.busRead Config.words (operandIdx i k) = wordOf (b.reg i) k := by
  simp only [Block.busRead, busTarget_operandIdx_of_lt i hk]

theorem writeOperand_of_idle {b : Block} (h : b.busy = false) (i : RegIdx) (k : Nat) (d : Word) :
    b.writeOperand i k d = b.setReg i (setWord (b.reg i) k d) := by
  simp [Block.writeOperand, h]

/-- A write at an operand word's index to an idle block replaces that word of the register (R69). -/
theorem busWrite_operandIdx_of_idle {b : Block} (hb : b.busy = false) (i : RegIdx) {k : Nat} (hk : k < Config.words)
    (d : Word) : b.busWrite Config.words (operandIdx i k) d = b.setReg i (setWord (b.reg i) k d) := by
  simp only [Block.busWrite, busTarget_operandIdx_of_lt i hk, writeOperand_of_idle hb]

/-- Replacing one word of a register shows at that word's index and at no other (R62, R69). -/
theorem busRead_setReg_setWord_of_ne {words : Nat} {w : WordIdx} {i : RegIdx} {k : Nat} (hw : w ≠ operandIdx i k)
    (b : Block) (d : Word) : (b.setReg i (setWord (b.reg i) k d)).busRead words w = b.busRead words w := by
  unfold Block.busRead
  cases ht : busTarget words w with
  | operand j l =>
    by_cases hj : i = j
    · subst hj
      have hl : l ≠ k := by
        rintro rfl
        exact hw (eq_operandIdx_of_busTarget ht)
      simp only [reg_setReg_self, wordOf_setWord_of_ne hl]
    · simp only [reg_setReg_of_ne hj]
  | _ => rfl

/-- Settles O44: the write is one `setReg`, and `setWord` is known by its bits. -/
theorem operandWriteReplacesOneWord : Obligations.OperandWriteReplacesOneWord := by
  intro b i k d hb hk
  rw [busWrite_operandIdx_of_idle hb i hk, reg_setReg_self]
  exact ⟨fun n => testBit_setWord _ k n d, rfl⟩

/-- Settles O45: the written word reads back, and only its index names it. -/
theorem operandWordReadsBackAlone : Obligations.OperandWordReadsBackAlone := by
  intro b i k d hb hk
  rw [busWrite_operandIdx_of_idle hb i hk]
  refine ⟨?_, fun w hw => busRead_setReg_setWord_of_ne hw b d⟩
  rw [busRead_operandIdx _ i hk, reg_setReg_self, wordOf_setWord_self]

/-- The words of a number are its digits to the base 2^32: the first n of them sum to its remainder (R64). -/
theorem sum_wordOf_eq_mod (v n : Nat) :
    ((List.range n).map fun k => (wordOf v k).toNat * 2 ^ (32 * k)).sum = v % 2 ^ (32 * n) := by
  induction n with
  | zero => simp [Nat.mod_one]
  | succ n ih =>
    have hword : (wordOf v n).toNat = v / 2 ^ (32 * n) % 2 ^ 32 := BitVec.toNat_ofNat _ _
    rw [List.range_succ, List.map_append, List.sum_append, ih, List.map_singleton, List.sum_singleton, hword, Nat.mul_succ,
      pow_add, Nat.mod_mul, mul_comm (2 ^ (32 * n))]

/-- Settles O48: below 2^W a number is its own remainder. -/
theorem registerIsTheSumOfItsWords : Obligations.RegisterIsTheSumOfItsWords := by
  intro b i hlt
  calc b.reg i = b.reg i % 2 ^ width Config.words := (Nat.mod_eq_of_lt hlt).symm
    _ = ((List.range Config.words).map fun k => (wordOf (b.reg i) k).toNat * 2 ^ (32 * k)).sum :=
      (sum_wordOf_eq_mod _ _).symm
    _ = _ := by
      congr 1
      refine List.map_congr_left fun k hk => ?_
      rw [busRead_operandIdx b i (List.mem_range.mp hk)]

/-- Settles O46: CMD and the mapped words are discarded while busy; CTRL and STATUS do not look at BUSY. -/
theorem writesWhileBusyAreDiscarded : Obligations.WritesWhileBusyAreDiscarded := by
  intro b d hb
  exact ⟨busWrite_of_busy hb (.inl rfl) d,
    fun i k hk => busWrite_of_busy hb (.inr ⟨i, k, busTarget_operandIdx_of_lt i hk⟩) d,
    busWrite_ctrl _ b d, (busWrite_status _ b d).trans (writeStatus_eq b d)⟩

/-! ### Constant and reserved words -/

/-- PARAM as a number: NREG above WORDS (R25). -/
theorem paramWord_toNat : (paramWord Config.words).toNat = 16 * 2 ^ 16 + Config.words := by
  have hle := config_words_le
  simp only [paramWord, toNat_append_eq_add, BitVec.toNat_ofNat, Config.nreg]
  omega

/-- The reserved indices (R63): those between CMD and the operand window, and the words a register does not have. -/
theorem busTarget_eq_reserved {words : Nat} {w : WordIdx} (h5 : 5 ≤ w.toNat)
    (h : w.toNat < 0x1000 ∨ words ≤ w.toNat % 0x100) : busTarget words w = .reserved := by
  by_cases hlow : w.toNat < 0x1000
  · exact busTarget_low words h5 hlow
  · rw [busTarget_high words (by omega), if_neg (by omega)]

theorem busRead_reserved {words : Nat} {w : WordIdx} (h : busTarget words w = .reserved) (b : Block) :
    b.busRead words w = 0 := by
  simp only [Block.busRead, h]

theorem busWrite_reserved {words : Nat} {w : WordIdx} (h : busTarget words w = .reserved) (b : Block) (d : Word) :
    b.busWrite words w d = b := by
  simp only [Block.busWrite, h]

theorem ctrlWord_eq_ite (b : Block) : b.ctrlWord = if b.ie then 1 else 0 := by
  cases h : b.ie <;> simp [Block.ctrlWord, h]

/-- Settles O40, index by index. -/
theorem busReadReturnsTheWindow : Obligations.BusReadReturnsTheWindow :=
  fun s => ⟨rfl, paramWord_toNat, ctrlWord_eq_ite s.block, rfl, rfl, fun i _ hk => busRead_operandIdx s.block i hk,
    fun _ h5 h => busRead_reserved (busTarget_eq_reserved h5 h) s.block,
    fun w => ⟨_, step_withTurn_busRead s w, rfl, rfl⟩⟩

/-- Settles O47: both ranges of offsets hold only reserved indices. -/
theorem reservedWordsReadZeroIgnoreWrites : Obligations.ReservedWordsReadZeroIgnoreWrites := by
  refine ⟨fun b w d hw => ?_, fun b d => ⟨rfl, busWrite_id _ b d, paramWord_toNat, busWrite_param _ b d⟩⟩
  have ht : busTarget Config.words w = .reserved := by
    rcases hw with ⟨hlow, hhigh⟩ | ⟨i, k, hk, hk255, hoff⟩
    · exact busTarget_eq_reserved (by omega) (.inl (by omega))
    · exact busTarget_eq_reserved (by omega) (.inr (by omega))
  exact ⟨busRead_reserved ht b, busWrite_reserved ht b d⟩

/-! ### Bridged accesses -/

/-- A turn that asks for a step at the port is that step. -/
theorem step_of_kind_ok {t : Turn} {k : StepKind} (h : t.kind Config.base = .ok k) (s : State) :
    step { s with turns := t :: s.turns } = step (s.withTurn k) :=
  (step_eq_performStep (s := { s with turns := t :: s.turns }) h).trans
    (step_eq_performStep (s := s.withTurn k) rfl).symm

/-- A turn that is refused stops the machine with its fault. -/
theorem step_of_kind_error {t : Turn} {f : Fault} (h : t.kind Config.base = .error f) (s : State) :
    step { s with turns := t :: s.turns } = .fault f := by
  simp only [step, stepWith, State.nextKind, h]

/-- A write the bridge passes is the bus write of its lanes (R65). -/
theorem step_bridgeWrite_admitted {addr : Nat} {bytes : List Byte} {w : WordIdx}
    (h : bridgeAdmit Config.base addr bytes.length = .ok w) (s : State) :
    step { s with turns := .bridgeWrite addr bytes :: s.turns } = step (s.withTurn (.busWrite w (wordOfBytes bytes))) :=
  step_of_kind_ok (by simp only [Turn.kind, h, Except.map]) s

/-- A read the bridge passes is the bus read (R66). -/
theorem step_bridgeRead_admitted {addr len : Nat} {w : WordIdx} (h : bridgeAdmit Config.base addr len = .ok w) (s : State) :
    step { s with turns := .bridgeRead addr len :: s.turns } = step (s.withTurn (.busRead w)) :=
  step_of_kind_ok (by simp only [Turn.kind, h, Except.map]) s

/-- A write the bridge refuses stops the machine with the bridge's fault (R66). -/
theorem step_bridgeWrite_refused {addr : Nat} {bytes : List Byte} {f : Fault}
    (h : bridgeAdmit Config.base addr bytes.length = .error f) (s : State) :
    step { s with turns := .bridgeWrite addr bytes :: s.turns } = .fault f :=
  step_of_kind_error (by simp only [Turn.kind, h, Except.map]) s

/-- A read the bridge refuses stops the machine with the bridge's fault (R66). -/
theorem step_bridgeRead_refused {addr len : Nat} {f : Fault} (h : bridgeAdmit Config.base addr len = .error f) (s : State) :
    step { s with turns := .bridgeRead addr len :: s.turns } = .fault f :=
  step_of_kind_error (by simp only [Turn.kind, h, Except.map]) s

/-- Settles O50: the bridge admits the aligned words of the window and refuses every other access, and the step follows it. -/
theorem bridgeCarriesAlignedWordsOnly : Obligations.BridgeCarriesAlignedWordsOnly := by
  intro s w b0 b1 b2 b3
  have hword : bridgeAdmit Config.base (Config.base + 4 * w.toNat) 4 = .ok w := bridgeAdmit_word Config.baseIndex w
  refine ⟨?_, step_bridgeRead_admitted hword s, fun off bytes hoff hbad => ?_, fun addr len bytes hout => ?_⟩
  · rw [← wordOfBytes_four]
    exact step_bridgeWrite_admitted hword s
  · have hmisfit := bridgeAdmit_misfit Config.baseIndex hoff hbad
    exact ⟨step_bridgeWrite_refused hmisfit s, step_bridgeRead_refused hmisfit s⟩
  · exact ⟨step_bridgeWrite_refused (bridgeAdmit_outside hout _) s, step_bridgeRead_refused (bridgeAdmit_outside hout _) s⟩

end Sys2Proof.Machine
end

section
/-! PROOFS. Encoding (30_encoding.md): the commands as the legal fields, the words of the mask table and the illegal words by
their fields, what the pseudo-instructions leave in their destination, and the register LDX writes. -/

namespace Sys2Proof.Machine

/-! ### Commands and words -/

/-- Every command is a legal word by its own row of R91. -/
theorem legalWord_statement (i : Instr) : Laws.LegalWord.Statement i := by
  cases i with
  | gcd rd ra rb => exact Laws.LegalWord.gcd rd ra rb
  | modexp rd ra rb rm => exact Laws.LegalWord.modexp rd ra rb rm
  | jacobi rd ra rn => exact Laws.LegalWord.jacobi rd ra rn
  | montmul rd ra rb rm => exact Laws.LegalWord.montmul rd ra rb rm
  | montr2 rd rm => exact Laws.LegalWord.montr2 rd rm

/-- The opcode table numbers the bits of a 32-bit word as the decoder does. -/
theorem decodeTableWord_toNat (c : Word) : decodeTableWord 32 c.toNat = (decode c).toOption := by
  rw [decodeTableWord, Nat.mod_eq_of_lt c.isLt, if_pos c.isLt, BitVec.ofNat_toNat, BitVec.setWidth_eq]

/-- Settles O1: the fields of a command are legal, and packing loses none of them. -/
theorem encodedCommandDecodesToItself : Obligations.EncodedCommandDecodesToItself := by
  intro i
  obtain ⟨hwf, -, -⟩ := legalWord_statement i
  refine ⟨hwf, decode_encode i, ?_⟩
  rw [decodeTableWord_toNat, decode_encode, Decoded.toOption]

/-- R94 reads every field: fields that decode to a command are its fields, the unused ones 0. -/
theorem fields_of_decodeFields {f : Fields} {i : Instr} (h : decodeFields f = .cmd i) : i.fields = f := by
  obtain ⟨op, rd, ra, rb, rm, zero⟩ := f
  unfold decodeFields at h
  split_ifs at h with hz h1 hrm h2 h3 hrm h4 h5 hab
  all_goals
    obtain rfl := Decoded.cmd.inj h
    simp_all [Instr.fields]

/-- A word decodes to a command exactly when the command has the word's fields (R90, R94). -/
theorem decode_eq_cmd_iff {c : Word} {i : Instr} : decode c = .cmd i ↔ cutFields c = i.fields := by
  refine ⟨fun h => (fields_of_decodeFields h).symm, fun h => ?_⟩
  obtain ⟨-, hdec, -⟩ := legalWord_statement i
  rw [decode, h, hdec]

/-- Settles O2: a word is packed from its own fields, and the command has those fields. -/
theorem decodedWordIsItsEncoding : Obligations.DecodedWordIsItsEncoding := by
  intro c i h
  rw [encode, ← decode_eq_cmd_iff.mp h, packFields_cutFields]

/-! ### The mask table -/

theorem regOf_inj {v w : BitVec 4} : regOf v = regOf w ↔ v = w := BitVec.toFin_inj

/-- Words with the same fields are the same word (R90). -/
theorem eq_iff_cutFields_eq {c d : Word} : c = d ↔ cutFields c = cutFields d :=
  ⟨congrArg cutFields, fun h => by rw [← packFields_cutFields c, h, packFields_cutFields]⟩

/-- A row is selected field by field (R90, R91). -/
theorem selects_iff (r : OpRow) (c : Word) : r.selects c = true ↔
    c.extractLsb' 0 8 &&& r.mask.extractLsb' 0 8 = r.value.extractLsb' 0 8 ∧
    c.extractLsb' 8 4 &&& r.mask.extractLsb' 8 4 = r.value.extractLsb' 8 4 ∧
    c.extractLsb' 12 4 &&& r.mask.extractLsb' 12 4 = r.value.extractLsb' 12 4 ∧
    c.extractLsb' 16 4 &&& r.mask.extractLsb' 16 4 = r.value.extractLsb' 16 4 ∧
    c.extractLsb' 20 4 &&& r.mask.extractLsb' 20 4 = r.value.extractLsb' 20 4 ∧
    c.extractLsb' 24 8 &&& r.mask.extractLsb' 24 8 = r.value.extractLsb' 24 8 := by
  rw [OpRow.selects, decide_eq_true_iff, eq_iff_cutFields_eq]
  simp only [cutFields, Fields.mk.injEq, regOf_inj, BitVec.extractLsb'_and]

theorem regOf_eq_zero {v : BitVec 4} : regOf v = 0 ↔ v = 0 := regOf_inj (w := 0)

/-- A mask of ones keeps a field. -/
theorem and_full8 (v : BitVec 8) : v &&& 255#8 = v := BitVec.and_allOnes

/-- A mask of ones keeps a register field. -/
theorem and_full4 (v : BitVec 4) : v &&& 15#4 = v := BitVec.and_allOnes

/-- A command is of one of the five rows. -/
theorem exists_instr {p : Instr → Prop} : (∃ i, p i) ↔
    (∃ rd ra rb, p (.gcd rd ra rb)) ∨ (∃ rd ra rb rm, p (.modexp rd ra rb rm)) ∨ (∃ rd ra rn, p (.jacobi rd ra rn)) ∨
    (∃ rd ra rb rm, p (.montmul rd ra rb rm)) ∨ ∃ rd rm, p (.montr2 rd rm) := by
  constructor
  · rintro ⟨i, hi⟩
    cases i with
    | gcd rd ra rb => exact .inl ⟨rd, ra, rb, hi⟩
    | modexp rd ra rb rm => exact .inr (.inl ⟨rd, ra, rb, rm, hi⟩)
    | jacobi rd ra rn => exact .inr (.inr (.inl ⟨rd, ra, rn, hi⟩))
    | montmul rd ra rb rm => exact .inr (.inr (.inr (.inl ⟨rd, ra, rb, rm, hi⟩)))
    | montr2 rd rm => exact .inr (.inr (.inr (.inr ⟨rd, rm, hi⟩)))
  · rintro (⟨_, _, _, h⟩ | ⟨_, _, _, _, h⟩ | ⟨_, _, _, h⟩ | ⟨_, _, _, _, h⟩ | ⟨_, _, h⟩) <;> exact ⟨_, h⟩

/-- A row of R91 is selected by the words of its own command and no others. -/
theorem selects_iff_decode {r : OpRow} (hr : r ∈ opRows) (c : Word) :
    r.selects c = true ↔ ∃ i, decode c = .cmd i ∧ i.mnemonic = r.mnemonic := by
  -- both sides as conditions on the fields of c: a field that the mask drops is a register the command names
  simp only [selects_iff, decode_eq_cmd_iff, exists_instr, Instr.mnemonic, Instr.fields, cutFields, Fields.mk.injEq]
  simp only [opRows, List.mem_cons, List.not_mem_nil, or_false] at hr
  rcases hr with rfl | rfl | rfl | rfl | rfl
  all_goals simp [and_full8, and_full4, regOf_eq_zero]

/-- Settles O3: a legal word selects the row of its own command's mnemonic, and a selected row names its word's command. -/
theorem legalWordsSelectTheirRow : Obligations.LegalWordsSelectTheirRow := by
  intro c
  refine ⟨⟨?_, ?_⟩, fun i hi r hr => ?_⟩
  · rintro ⟨i, hi⟩
    obtain ⟨-, -, r, hr, hmnem, -⟩ := legalWord_statement i
    exact ⟨r, hr, (selects_iff_decode hr c).mpr ⟨i, hi, hmnem.symm⟩⟩
  · rintro ⟨r, hr, hsel⟩
    obtain ⟨i, hi, -⟩ := (selects_iff_decode hr c).mp hsel
    exact ⟨i, hi⟩
  · rw [selects_iff_decode hr]
    constructor
    · rintro ⟨j, hj, hmnem⟩
      obtain rfl := Decoded.cmd.inj (hi.symm.trans hj)
      exact hmnem.symm
    · exact fun hmnem => ⟨i, hi, hmnem.symm⟩

/-! ### The illegal words -/

/-- A word is illegal when it decodes to no command: decoding is total (R94). -/
theorem decode_illegal_iff {c : Word} : (∃ why, decode c = .illegal why) ↔ ¬∃ i, decode c = .cmd i := by
  cases decode c <;> simp

/-- The legal words by their fields (R91, R94). -/
theorem decode_legal_iff {c : Word} : (∃ i, decode c = .cmd i) ↔
    c.extractLsb' 24 8 = 0 ∧
      (((c.extractLsb' 0 8 = 0x01 ∨ c.extractLsb' 0 8 = 0x03) ∧ c.extractLsb' 20 4 = 0) ∨
        c.extractLsb' 0 8 = 0x02 ∨ c.extractLsb' 0 8 = 0x04 ∨
        (c.extractLsb' 0 8 = 0x05 ∧ c.extractLsb' 12 4 = 0 ∧ c.extractLsb' 16 4 = 0)) := by
  simp only [decode_eq_cmd_iff, exists_instr, Instr.fields, cutFields, Fields.mk.injEq, regOf_eq_zero]
  constructor
  · rintro (⟨_, _, _, hop, -, -, -, hrm, hz⟩ | ⟨_, _, _, _, hop, -, -, -, -, hz⟩ | ⟨_, _, _, hop, -, -, -, hrm, hz⟩ |
      ⟨_, _, _, _, hop, -, -, -, -, hz⟩ | ⟨_, _, hop, -, hra, hrb, -, hz⟩)
    · exact ⟨hz, .inl ⟨.inl hop, hrm⟩⟩
    · exact ⟨hz, .inr (.inl hop)⟩
    · exact ⟨hz, .inl ⟨.inr hop, hrm⟩⟩
    · exact ⟨hz, .inr (.inr (.inl hop))⟩
    · exact ⟨hz, .inr (.inr (.inr ⟨hop, hra, hrb⟩))⟩
  · rintro ⟨hz, ⟨hop | hop, hrm⟩ | hop | hop | ⟨hop, hra, hrb⟩⟩ <;> simp [*]

/-- The assigned opcodes, and those R94 lists as no command's. -/
theorem opcode_cases (op : BitVec 8) :
    op = 0x01 ∨ op = 0x02 ∨ op = 0x03 ∨ op = 0x04 ∨ op = 0x05 ∨
      ((op = 0x00 ∨ 0x06 ≤ op.toNat) ∧ op ≠ 0x01 ∧ op ≠ 0x02 ∧ op ≠ 0x03 ∧ op ≠ 0x04 ∧ op ≠ 0x05) := by
  bv_omega

/-- Settles O4: opcode by opcode, the listed words are the complement of the legal ones. -/
theorem illegalWordsAreExactlyTheListed : Obligations.IllegalWordsAreExactlyTheListed := by
  intro c
  rw [decode_illegal_iff, decode_legal_iff]
  rcases opcode_cases (c.extractLsb' 0 8) with hop | hop | hop | hop | hop | ⟨hlisted, h1, h2, h3, h4, h5⟩
  · simp [hop, imp_iff_not_or]
  · simp [hop]
  · simp [hop, imp_iff_not_or]
  · simp [hop]
  · simp [hop, imp_iff_not_or]
  · refine iff_of_true ?_ (.inr (hlisted.imp_right .inl))
    simp only [h1, h2, h3, h4, h5, or_self, false_and, and_false, not_false_eq_true]

/-- Settles O5, by decoding each word. -/
theorem sampleWordsDecodeAsListed : Obligations.SampleWordsDecodeAsListed := by
  unfold Obligations.SampleWordsDecodeAsListed
  decide

/-! ### The pseudo-instructions -/

/-- R155 and R157: the squared radix carries a number into Montgomery form (R158). -/
theorem montprod_radixSquare {n : Nat} (hn : n % 2 = 1) (w a : Nat) :
    montprod w a (radixSquare w n) n = a * 2 ^ w % n := by
  have hinv : radixInv w n * 2 ^ w ≡ 1 [MOD n] := (radixInv_spec hn w).2
  have hsq : radixSquare w n ≡ 2 ^ w * 2 ^ w [MOD n] := by
    rw [← pow_add, ← two_mul]
    exact Nat.mod_modEq _ _
  have h : a * radixSquare w n * radixInv w n ≡ a * 2 ^ w [MOD n] := by
    calc a * radixSquare w n * radixInv w n
        ≡ a * (2 ^ w * 2 ^ w) * radixInv w n [MOD n] := (hsq.mul_left a).mul_right _
      _ = a * 2 ^ w * (radixInv w n * 2 ^ w) := by ring
      _ ≡ a * 2 ^ w * 1 [MOD n] := hinv.mul_left _
      _ = a * 2 ^ w := mul_one _
  exact h

/-- An odd modulus passes both checks of the Montgomery family (R156, R157). -/
theorem oddModulus_of_odd {n : Nat} (hn : n % 2 = 1) (v : Nat) : oddModulus n v = .value v := by
  have h0 : n ≠ 0 := by omega
  simp [oddModulus, isEven, h0, hn]

theorem exec_montmul_of_odd {s : State} {rm : RegIdx} (hn : s.reg rm % 2 = 1) (rd ra rb : RegIdx) :
    exec (.montmul rd ra rb rm) s =
      .next (s.complete rd (.value (montprod (width Config.words) (s.reg ra) (s.reg rb) (s.reg rm)))) := by
  rw [exec_eq, outcomeAt, oddModulus_of_odd hn, Instr.dest]

theorem exec_montr2_of_odd {s : State} {rm : RegIdx} (hn : s.reg rm % 2 = 1) (rd : RegIdx) :
    exec (.montr2 rd rm) s = .next (s.complete rd (.value (radixSquare (width Config.words) (s.reg rm)))) := by
  rw [exec_eq, outcomeAt, oddModulus_of_odd hn, Instr.dest]

/-- A completion with a value leaves it in the destination (R42). -/
@[simp] theorem reg_stateComplete_value_self (s : State) (rd : RegIdx) (v : Nat) : (s.complete rd (.value v)).reg rd = v :=
  reg_setReg_self s.block rd v

/-- A completion leaves every register but the destination (R42). -/
theorem reg_stateComplete_of_ne {rd j : RegIdx} (h : rd ≠ j) (s : State) (o : CmdOutcome) :
    (s.complete rd o).reg j = s.reg j :=
  reg_complete_of_ne h s.block o

/-- Settles O26: MONTR2 leaves the squared radix in Xt and Xa and Xm as they were. -/
theorem tomontEntersMontgomeryForm : Obligations.TomontEntersMontgomeryForm := by
  intro xd xa xm xt s hodd hta htm
  have hodd' : (s.complete xt (.value (radixSquare (width Config.words) (s.reg xm)))).reg xm % 2 = 1 := by
    rwa [reg_stateComplete_of_ne htm]
  refine ⟨_, _, rfl, exec_montr2_of_odd hodd xt, exec_montmul_of_odd hodd' xd xa xt, ?_, rfl⟩
  rw [reg_stateComplete_value_self, reg_stateComplete_value_self, reg_stateComplete_of_ne hta, reg_stateComplete_of_ne htm,
    montprod_radixSquare hodd]

/-- Settles O25: the last two commands are TOMONT of the Montgomery product in Xd. -/
theorem modmulComputesTheModularProduct : Obligations.ModmulComputesTheModularProduct := by
  intro xd xa xb xm xt s hodd htd htm hdm
  have hm : (s.complete xd (.value (montprod (width Config.words) (s.reg xa) (s.reg xb) (s.reg xm)))).reg xm = s.reg xm :=
    reg_stateComplete_of_ne hdm s _
  obtain ⟨u, v, -, hu, hv, hreg, herr⟩ := tomontEntersMontgomeryForm xd xd xm xt _ (by rwa [hm]) htd htm
  refine ⟨_, u, v, exec_montmul_of_odd hodd xd xa xb, hu, hv, rfl, ?_, herr⟩
  rw [hreg, hm, reg_stateComplete_value_self]
  exact (montprod_spec hodd _ _ _).2

/-! ### Loading a register -/

/-- Writing back what a register holds changes nothing. -/
theorem setReg_reg (b : Block) (i : RegIdx) : b.setReg i (b.reg i) = b := by
  rw [Block.setReg, Block.reg]
  congr
  exact Vector.set_getElem_self i.isLt

/-- Of two writes to one register the last stands. -/
theorem setReg_setReg (b : Block) (i : RegIdx) (u v : Nat) : (b.setReg i u).setReg i v = b.setReg i v := by
  simp [Block.setReg]

/-- R97's `WR` of a word of a register, as a run's first turn on an idle block, replaces the word (R69). -/
theorem runSteps_busWr_operand {b : Block} (hb : b.busy = false) (i : RegIdx) {k : Nat} (hk : k < Config.words) (d : Word)
    (ts : List Turn) (r : Word) (n : Nat) :
    runSteps (n + 1) ⟨b, busWr (0x4000 + 0x400 * i.val + 4 * k) d :: ts, r⟩ =
      runSteps n ⟨b.setReg i (setWord (b.reg i) k d), ts, 0⟩ := by
  rw [busWr, offIdx, operandIdx_of_offset, runSteps_port, Block.after, busWrite_operandIdx_of_idle hb i hk]
  rfl

/-- A number with some of its words replaced, one after the other, by those of v. -/
def takeWords (v : Nat) (ks : List Nat) (u : Nat) : Nat := ks.foldl (fun u k => setWord u k (wordOf v k)) u

theorem takeWords_cons (v k : Nat) (ks : List Nat) (u : Nat) :
    takeWords v (k :: ks) u = takeWords v ks (setWord u k (wordOf v k)) := by
  rw [takeWords, List.foldl_cons, takeWords]

/-- Writes of the words ks of v to a register of an idle block, run to their end. -/
theorem runSteps_wordWrites (i : RegIdx) (v : Nat) (ks : List Nat) (hks : ∀ k ∈ ks, k < Config.words) {b : Block}
    (hb : b.busy = false) (r : Word) :
    runSteps ks.length ⟨b, ks.map fun k => busWr (0x4000 + 0x400 * i.val + 4 * k) (wordOf v k), r⟩ =
      .next ⟨b.setReg i (takeWords v ks (b.reg i)), [], if ks = [] then r else 0⟩ := by
  induction ks generalizing b r with
  | nil => simp [takeWords, setReg_reg]
  | cons k ks ih =>
    rw [List.forall_mem_cons] at hks
    obtain ⟨hk, hks⟩ := hks
    rw [List.map_cons, List.length_cons, runSteps_busWr_operand hb i hk, ih hks (by simpa using hb), reg_setReg_self,
      setReg_setReg, takeWords_cons]
    simp

theorem takeWords_range_succ (v n u : Nat) :
    takeWords v (List.range (n + 1)) u = setWord (takeWords v (List.range n) u) n (wordOf v n) := by
  simp [takeWords, List.range_succ]

/-- Taking the first n words of v leaves the bits above them. -/
theorem testBit_takeWords_range (v u n m : Nat) :
    (takeWords v (List.range n) u).testBit m = if m < 32 * n then v.testBit m else u.testBit m := by
  induction n with
  | zero => simp [takeWords]
  | succ n ih =>
    rw [takeWords_range_succ, testBit_setWord, getLsbD_wordOf, ih]
    by_cases hlow : m < 32 * n
    · rw [if_neg (by omega), if_pos hlow, if_pos (by omega)]
    · by_cases hword : m < 32 * n + 32
      · rw [if_pos ⟨by omega, hword⟩, if_pos (by omega), show 32 * n + (m - 32 * n) = m by omega,
          decide_eq_true (by omega), Bool.true_and]
      · rw [if_neg (by omega), if_neg hlow, if_neg (by omega)]

/-- Taking all words of a register's width gives v. -/
theorem takeWords_range_eq {words u v : Nat} (hu : u < 2 ^ width words) (hv : v < 2 ^ width words) :
    takeWords v (List.range words) u = v := by
  apply Nat.eq_of_testBit_eq
  intro m
  rw [testBit_takeWords_range]
  split
  · rfl
  · next hm =>
    have hle : 2 ^ width words ≤ 2 ^ m := Nat.pow_le_pow_right (by decide) (not_lt.mp hm)
    rw [Nat.testBit_lt_two_pow (hu.trans_le hle), Nat.testBit_lt_two_pow (hv.trans_le hle)]

/-- Settles O49: the accesses are one write for each word of the register, and together they replace all its bits. -/
theorem loadMacroSetsTheWholeRegister : Obligations.LoadMacroSetsTheWholeRegister := by
  intro s i v hb hu hv
  have hall : takeWords v (List.range Config.words) (s.block.reg i) = v := takeWords_range_eq hu hv
  have hrun := runSteps_wordWrites i v (List.range Config.words) (fun k => List.mem_range.mp) hb s.rdata
  rwa [List.length_range, if_neg (mt List.range_eq_nil.mp config_words_pos.ne'), hall] at hrun

end Sys2Proof.Machine
end

section
/-! PROOFS. The GCD unit (40_gcd.md): the state GCD leaves and its words (R110), and the number of iterations of its loop
(R114). -/

namespace Sys2Proof.Machine

/-! ### The command -/

/-- A completion with a value is the state R42 writes out for it, with the symbol 0. -/
theorem complete_value_eq_completedWith (s : State) (rd : RegIdx) (v : Nat) :
    s.complete rd (.value v) = s.completedWith rd v .zero := rfl

/-- The word of a GCD command: the terms of RM and ZERO are 0 (R90, R110). -/
theorem encode_gcd (rd ra rb : RegIdx) :
    encode (.gcd rd ra rb) = BitVec.ofNat 32 (rb.val * 2 ^ 16 + ra.val * 2 ^ 12 + rd.val * 2 ^ 8 + 0x01) := by
  simp [encode, Instr.fields, packFields]

/-- Settles O16: the outcome is always the value of Euclid's loop, and of the words with GCD's opcode those with RM and ZERO 0
are the legal ones. -/
theorem gcdWritesTheGreatestCommonDivisor : Obligations.GcdWritesTheGreatestCommonDivisor := by
  refine ⟨fun rd ra rb s => ?_, encode_gcd, fun c hop => ?_⟩
  · rw [exec_eq, outcomeAt, gcdOutcome, euclid_eq_gcd, complete_value_eq_completedWith, Instr.dest]
  · rw [decode_illegal_iff, decode_legal_iff]
    simp [hop, imp_iff_not_or, or_comm]

/-! ### The iterations of the loop -/

@[simp] theorem euclidStepsLoop_zero_right (n u : Nat) : euclidStepsLoop n u 0 = 0 := by
  cases n <;> simp [euclidStepsLoop]

/-- The loop runs at most once more than from the pair its first iteration leaves (R110). -/
theorem euclidStepsLoop_le_succ (n u v : Nat) : euclidStepsLoop n u v ≤ euclidStepsLoop (n - 1) v (u % v) + 1 := by
  cases n with
  | zero => exact Nat.zero_le _
  | succ n =>
    rw [euclidStepsLoop]
    split
    · exact Nat.zero_le _
    · exact le_rfl

/-- A remainder by a number no greater is less than half of what is divided. -/
theorem two_mul_mod_lt {r v : Nat} (hr : 0 < r) (hrv : r ≤ v) : 2 * (v % r) < v := by
  have hlt : v % r < r := Nat.mod_lt v hr
  have hle : v % r ≤ v - r := by
    rw [Nat.mod_eq_sub_mod hrv]
    exact Nat.mod_le _ _
  omega

/-- Two iterations halve v, so a v of at most w bits is 0 after 2·w of them (R114). -/
theorem euclidStepsLoop_le_two_mul {w v : Nat} (hv : v < 2 ^ w) (n u : Nat) : euclidStepsLoop n u v ≤ 2 * w := by
  induction w generalizing n u v with
  | zero =>
    obtain rfl : v = 0 := Nat.lt_one_iff.mp hv
    simp
  | succ w ih =>
    rcases Nat.eq_zero_or_pos v with rfl | hv0
    · simp
    have hfirst := euclidStepsLoop_le_succ n u v
    rcases Nat.eq_zero_or_pos (u % v) with hr | hr
    · rw [hr, euclidStepsLoop_zero_right] at hfirst
      omega
    · have hsecond := euclidStepsLoop_le_succ (n - 1) v (u % v)
      have hhalf : 2 * (v % (u % v)) < v := two_mul_mod_lt hr (Nat.mod_lt u hv0).le
      have hrest := ih (v := v % (u % v)) (by rw [pow_succ] at hv; omega) (n - 1 - 1) (u % v)
      omega

/-- Settles O30: the second operand alone bounds the iterations, by 2·w already. -/
theorem euclidStepsAreBounded : Obligations.EuclidStepsAreBounded :=
  fun w a b _ hb => (euclidStepsLoop_le_two_mul hb (b + 1) a).trans (Nat.le_succ (2 * w))

end Sys2Proof.Machine
end

section
/-! PROOFS. The modular exponentiation engine (41_modexp.md): the state MODEXP leaves and its words (R120), and the squarings and
multiplications of its reference procedure (R125). -/

namespace Sys2Proof.Machine

/-! ### The command -/

/-- A completion with an error is the state R177 writes out for it. -/
theorem complete_error_eq_failedWith (s : State) (rd : RegIdx) (e : ErrCode) :
    s.complete rd (.error e) = s.failedWith e := rfl

/-- A modulus other than 0 passes MODEXP's only check (R120). -/
theorem modexpOutcome_of_ne_zero {n : Nat} (hn : n ≠ 0) (base exp : Nat) :
    modexpOutcome base exp n = .value (base ^ exp % n) := by
  rw [modexpOutcome, if_neg hn, modexp_eq_pow_mod]

theorem modexpOutcome_zero (base exp : Nat) : modexpOutcome base exp 0 = .error .invalidModulus := if_pos rfl

/-- The word of a MODEXP command: the term of ZERO is 0 (R90, R120). -/
theorem encode_modexp (rd ra rb rm : RegIdx) : encode (.modexp rd ra rb rm) =
    BitVec.ofNat 32 (rm.val * 2 ^ 20 + rb.val * 2 ^ 16 + ra.val * 2 ^ 12 + rd.val * 2 ^ 8 + 0x02) := by
  simp [encode, Instr.fields, packFields]

/-- Settles O17: R121's value is the power unless the modulus is 0, and of the words with MODEXP's opcode those with ZERO 0 are
the legal ones. -/
theorem modexpWritesThePowerModulo : Obligations.ModexpWritesThePowerModulo := by
  refine ⟨fun rd ra rb rm s hn => ?_, fun rd ra rb rm s hn => ?_, encode_modexp, fun c hop => ?_⟩
  · rw [exec_eq, outcomeAt, modexpOutcome_of_ne_zero hn, complete_value_eq_completedWith, Instr.dest]
  · rw [exec_eq, outcomeAt, hn, modexpOutcome_zero, complete_error_eq_failedWith]
  · rw [decode_illegal_iff, decode_legal_iff]
    simp [hop]

/-! ### The bits of the exponent -/

/-- A number has at most w bits exactly when it is below 2^w (R11). -/
theorem bitlen_le_iff {e w : Nat} : bitlen e ≤ w ↔ e < 2 ^ w := by
  unfold bitlen
  split
  · next h => simp [h]
  · next h => rw [Nat.succ_le_iff, Nat.log2_lt h]

theorem popcount_succ (w e : Nat) : popcount (w + 1) e = popcount w e + if e.testBit w then 1 else 0 := by
  cases h : e.testBit w <;> simp [popcount, List.range_succ, h]

/-- No more 1 bits than bits looked at. -/
theorem popcount_le (w e : Nat) : popcount w e ≤ w := by
  simpa [popcount] using List.length_filter_le (fun i => e.testBit i) (List.range w)

/-- The bits above a number's own are 0, so they add nothing to its 1 bits. -/
theorem popcount_eq_of_lt {n w e : Nat} (he : e < 2 ^ n) (hnw : n ≤ w) : popcount w e = popcount n e := by
  induction w, hnw using Nat.le_induction with
  | base => rfl
  | succ w hnw ih =>
    have hbit : e.testBit w = false := Nat.testBit_lt_two_pow (he.trans_le (Nat.pow_le_pow_right (by decide) hnw))
    simp [popcount_succ, hbit, ih]

/-! ### The work of the loop -/

/-- Over the low i bits of the exponent the loop of R121 squares i times and multiplies once per 1 bit. -/
theorem modexpWorkLoop_eq (e i : Nat) : modexpWorkLoop e i = (i, popcount i e) := by
  induction i with
  | zero => rfl
  | succ i ih =>
    rw [modexpWorkLoop, ih, popcount_succ]
    cases e.testBit i <;> rfl

/-- Settles O31: the loop runs over the exponent's own bits, which hold all its 1 bits and are at most w. -/
theorem modexpWorkFollowsTheExponent : Obligations.ModexpWorkFollowsTheExponent := by
  intro w e he
  have hlen : bitlen e ≤ w := bitlen_le_iff.mpr he
  have hpop : popcount w e = popcount (bitlen e) e := popcount_eq_of_lt (bitlen_le_iff.mp le_rfl) hlen
  have hle := popcount_le w e
  rw [modexpWork, modexpWorkLoop_eq, ← hpop]
  exact ⟨rfl, by omega⟩

end Sys2Proof.Machine
end

section
/-! PROOFS. The Jacobi-symbol pipeline (42_jacobi.md): the state JACOBI leaves and its words (R135, R147), the rules of the
symbol (R143, R149), the iterative form (R145) and the number of its steps (R151). -/

namespace Sys2Proof.Machine

/-! ### The command -/

/-- An odd modulus passes JACOBI's only check (R147). -/
theorem jacobiOutcome_of_odd {n : Nat} (hn : n % 2 = 1) (a : Nat) :
    jacobiOutcome a n = .valueSym (jacobi a n % (n : Int)).toNat (jsymOf (jacobi a n)) := by
  simp [jacobiOutcome, isEven, hn, residue]

theorem jacobiOutcome_of_even {n : Nat} (hn : n % 2 = 0) (a : Nat) : jacobiOutcome a n = .error .jacobiDomain := by
  simp [jacobiOutcome, isEven, hn]

/-- A completion with a symbol is the state R42 writes out for it. -/
theorem complete_valueSym_eq_completedWith (s : State) (rd : RegIdx) (v : Nat) (j : JSym) :
    s.complete rd (.valueSym v j) = s.completedWith rd v j := rfl

/-- The state JACOBI leaves for an odd modulus (R135). -/
theorem exec_jacobi_of_odd {s : State} {rn : RegIdx} (hn : s.reg rn % 2 = 1) (rd ra : RegIdx) :
    exec (.jacobi rd ra rn) s =
      .next (s.completedWith rd (jacobi (s.reg ra) (s.reg rn) % (s.reg rn : Int)).toNat
        (jsymOf (jacobi (s.reg ra) (s.reg rn)))) := by
  rw [exec_eq, outcomeAt, jacobiOutcome_of_odd hn, complete_valueSym_eq_completedWith, Instr.dest]

/-- The word of a JACOBI command: the terms of RM and ZERO are 0 (R90, R135). -/
theorem encode_jacobi (rd ra rn : RegIdx) :
    encode (.jacobi rd ra rn) = BitVec.ofNat 32 (rn.val * 2 ^ 16 + ra.val * 2 ^ 12 + rd.val * 2 ^ 8 + 0x03) := by
  simp [encode, Instr.fields, packFields]

/-- Settles O19: the parity of the modulus decides between value and error, and of the words with JACOBI's opcode those with RM
and ZERO 0 are the legal ones. -/
theorem jacobiCompletesByItsRule : Obligations.JacobiCompletesByItsRule := by
  refine ⟨fun rd ra rn s hn => exec_jacobi_of_odd hn rd ra, fun rd ra rn s hn => ?_, encode_jacobi, fun c hop => ?_⟩
  · rw [exec_eq, outcomeAt, jacobiOutcome_of_even hn, complete_error_eq_failedWith]
  · rw [decode_illegal_iff, decode_legal_iff]
    simp [hop, imp_iff_not_or, or_comm]

/-- A symbol is recovered from its three-valued code (R146). -/
theorem toInt_jsymOf {j : Int} (h : j = 0 ∨ j = 1 ∨ j = -1) : (jsymOf j).toInt = j := by
  rcases h with rfl | rfl | rfl <;> rfl

/-- Settles O18: the recursion's value is the Jacobi symbol, which is 0, 1 or -1 and so has a code. -/
theorem jacobiWritesTheStandardSymbol : Obligations.JacobiWritesTheStandardSymbol := by
  intro rd ra rn s hn
  have hsym := jacobi_eq_jacobiSym hn (s.reg ra)
  have hcode := toInt_jsymOf (jacobiSym.trichotomy (s.reg ra) (s.reg rn))
  refine ⟨hsym, jsymOf (jacobiSym (s.reg ra) (s.reg rn)), hcode, ?_, ?_⟩
  · rw [JSym.code_toInt, hcode]
  · rw [exec_jacobi_of_odd hn, hsym]

/-! ### The rules of the symbol -/

section
variable {n : Nat} (hn : n % 2 = 1)
include hn

theorem jacobi_zero_left : jacobi 0 n = if n = 1 then 1 else 0 := by
  rw [jacobi_eq_jacobiSym hn, Nat.cast_zero]
  split
  · next h => rw [h, jacobiSym.one_right]
  · next h => exact jacobiSym.zero_left (by omega)

theorem jacobi_one_left : jacobi 1 n = 1 := by
  rw [jacobi_eq_jacobiSym hn, Nat.cast_one, jacobiSym.one_left]

theorem jacobi_two_left : jacobi 2 n = jacobiTwo n := by
  rw [jacobi_eq_jacobiSym hn, jacobiTwo_eq hn, Nat.cast_two]

/-- Case 5 is the symbol's dependence on a modulo n only. -/
theorem jacobi_mod_left (a : Nat) : jacobi (a % n) n = jacobi a n := by
  rw [jacobi_eq_jacobiSym hn, jacobi_eq_jacobiSym hn, Int.natCast_mod, ← jacobiSym.mod_left]

theorem jacobi_mul_left (a b : Nat) : jacobi (a * b) n = jacobi a n * jacobi b n := by
  simp only [jacobi_eq_jacobiSym hn, Nat.cast_mul, jacobiSym.mul_left]

/-- Case 6: the symbol at an even number by its half. -/
theorem jacobi_of_even {a : Nat} (ha : a % 2 = 0) : jacobi a n = jacobi 2 n * jacobi (a / 2) n := by
  rw [← jacobi_mul_left hn, show 2 * (a / 2) = a by omega]

/-- Case 7, both numbers odd. -/
theorem jacobi_swap {a : Nat} (ha : a % 2 = 1) :
    jacobi a n = if a % 4 = 3 ∧ n % 4 = 3 then -jacobi n a else jacobi n a := by
  rw [jacobi_eq_jacobiSym hn, jacobi_eq_jacobiSym ha, jacobiSym_swap ha hn]

theorem jacobi_eq_zero_iff (a : Nat) : jacobi a n = 0 ↔ Nat.gcd a n ≠ 1 := by
  have hn0 : n ≠ 0 := by omega
  rw [jacobi_eq_jacobiSym hn, jacobiSym.eq_zero_iff, Int.gcd_natCast_natCast]
  exact and_iff_right hn0

end

/-- Settles O20: each case of R143 is a rule of the symbol. -/
theorem jacobiFollowsTheRecursion : Obligations.JacobiFollowsTheRecursion := by
  intro a n hn
  by_cases h0 : a = 0
  · rw [if_pos h0, h0, jacobi_zero_left hn]
  by_cases h1 : a = 1
  · rw [if_neg h0, if_pos h1, h1, jacobi_one_left hn]
  by_cases h2 : a = 2
  · rw [if_neg h0, if_neg h1, if_pos h2, h2, jacobi_two_left hn, jacobiTwo]
  rw [if_neg h0, if_neg h1, if_neg h2]
  by_cases hge : a ≥ n
  · rw [if_pos hge, jacobi_mod_left hn]
  by_cases heven : a % 2 = 0
  · rw [if_neg hge, if_pos heven, ← jacobi_of_even hn heven]
  · rw [if_neg hge, if_neg heven, ← jacobi_swap hn (by omega)]

/-- Euler's criterion (R149): modulo an odd prime the symbol is a power. -/
theorem jacobi_emod_prime {p : Nat} (hp : p.Prime) (hodd : p % 2 = 1) (a : Nat) :
    jacobi a p % (p : Int) = ((a ^ ((p - 1) / 2) % p : Nat) : Int) := by
  have : Fact p.Prime := ⟨hp⟩
  have hhalf : (p - 1) / 2 = p / 2 := by omega
  have hpow : ((jacobiSym a p : Int) : ZMod p) = ((a ^ (p / 2) : Nat) : Int) := by
    rw [← jacobiSym.legendreSym.to_jacobiSym, legendreSym.eq_pow]
    push_cast
    rfl
  rw [jacobi_eq_jacobiSym hodd, hhalf, Int.natCast_mod]
  exact (ZMod.intCast_eq_intCast_iff' _ _ _).mp hpow

/-- Settles O21, by the symbol's rules and Euler's criterion. -/
theorem jacobiIsMultiplicative : Obligations.JacobiIsMultiplicative := by
  refine ⟨fun a b n hn => ⟨jacobi_mul_left hn a b, jacobi_mod_left hn (a * b), jacobi_eq_zero_iff hn a⟩, ?_⟩
  intro a p hp hodd
  rw [jacobi_emod_prime hp hodd, Int.toNat_natCast]

/-! ### The iterative form -/

/-- One halving: the sign turns exactly when the symbol at 2 is -1 (R139). -/
theorem halvingSign_eq {n : Nat} (hn : n % 2 = 1) (t : Int) :
    (if n % 8 = 3 ∨ n % 8 = 5 then -t else t) = t * jacobi 2 n := by
  rw [jacobi_two_left hn, jacobiTwo]
  by_cases h : n % 8 = 3 ∨ n % 8 = 5
  · rw [if_pos h, if_neg (by omega), mul_neg_one]
  · rw [if_neg h, if_pos (by omega), mul_one]

/-- The inner loop leaves a number other than 0, no greater than a. -/
theorem stripTwos_fst_bounds {a : Nat} (ha : a ≠ 0) (f n : Nat) (t : Int) :
    (stripTwos f a n t).1 ≠ 0 ∧ (stripTwos f a n t).1 ≤ a := by
  induction f generalizing a t with
  | zero => exact ⟨ha, le_rfl⟩
  | succ f ih =>
    rw [stripTwos]
    split
    · next h =>
      obtain ⟨hne, hle⟩ := ih (a := a / 2) (by omega) (if n % 8 = 3 ∨ n % 8 = 5 then -t else t)
      exact ⟨hne, hle.trans (Nat.div_le_self a 2)⟩
    · exact ⟨ha, le_rfl⟩

/-- With enough turns the inner loop ends at an odd number. -/
theorem stripTwos_fst_odd {f a : Nat} (ha : a ≠ 0) (hf : a ≤ f) (n : Nat) (t : Int) :
    (stripTwos f a n t).1 % 2 = 1 := by
  induction f generalizing a t with
  | zero => omega
  | succ f ih =>
    rw [stripTwos]
    split
    · exact ih (by omega) (by omega) _
    · next h => exact Nat.mod_two_ne_zero.mp fun heven => h ⟨ha, heven⟩

/-- The inner loop keeps the sign times the symbol. -/
theorem stripTwos_snd_mul_jacobi {n : Nat} (hn : n % 2 = 1) (f a : Nat) (t : Int) :
    (stripTwos f a n t).2 * jacobi (stripTwos f a n t).1 n = t * jacobi a n := by
  induction f generalizing a t with
  | zero => rfl
  | succ f ih =>
    rw [stripTwos]
    split
    · next h => rw [ih, halvingSign_eq hn, mul_assoc, ← jacobi_of_even hn h.2]
    · rfl

/-- One swap keeps the sign times the symbol, both numbers odd (R142). -/
theorem swapSign_mul_jacobi {a n : Nat} (ha : a % 2 = 1) (hn : n % 2 = 1) (t : Int) :
    (if n % 4 = 3 ∧ a % 4 = 3 then -t else t) * jacobi (n % a) a = t * jacobi a n := by
  rw [jacobi_mod_left ha, jacobi_swap ha hn]
  split
  · rw [neg_mul_neg]
  · rfl

/-- The outer loop gives the sign it starts from times the symbol. -/
theorem jacobiIterLoop_eq {f a n : Nat} (hn : n % 2 = 1) (hf : a < f) (t : Int) :
    jacobiIterLoop f a n t = t * jacobi a n := by
  induction f generalizing a n t with
  | zero => omega
  | succ f ih =>
    rw [jacobiIterLoop]
    split
    · next h0 => rw [h0, jacobi_zero_left hn, mul_ite, mul_one, mul_zero]
    · next h0 =>
      obtain ⟨hne, hle⟩ := stripTwos_fst_bounds h0 a n t
      have hodd := stripTwos_fst_odd h0 le_rfl n t
      have hlt := Nat.mod_lt n (Nat.pos_of_ne_zero hne)
      rw [ih hodd (by omega), swapSign_mul_jacobi hodd hn, stripTwos_snd_mul_jacobi hn]

/-- Settles O27: the loop starts from the sign 1 and a modulo n. -/
theorem jacobiIterativeFormAgrees : Obligations.JacobiIterativeFormAgrees := by
  intro a n hn
  rw [jacobiIter, jacobiIterLoop_eq hn (Nat.lt_succ_self _), one_mul, jacobi_mod_left hn]

/-! ### The steps of the iterative form -/

@[simp] theorem jacobiWorkLoop_zero_left (f n : Nat) : jacobiWorkLoop f 0 n = (0, 0) := by
  cases f <;> simp [jacobiWorkLoop]

/-- What one turn of the outer loop adds to the work, with r the odd part it swaps to the modulus. -/
theorem jacobiWorkLoop_le_succ {a : Nat} (ha : a ≠ 0) (f n : Nat) :
    ∃ r, 0 < r ∧ r ≤ a ∧ (jacobiWorkLoop f a n).1 ≤ (jacobiWorkLoop (f - 1) (n % r) r).1 + 1 := by
  obtain ⟨hne, hle⟩ := stripTwos_fst_bounds ha a n 1
  refine ⟨_, Nat.pos_of_ne_zero hne, hle, ?_⟩
  cases f with
  | zero => exact Nat.zero_le _
  | succ f => rw [jacobiWorkLoop, if_neg ha, Nat.add_sub_cancel]

/-- Two swaps halve a, so an a of at most w bits is 0 after 2·w of them (R151). -/
theorem jacobiWorkLoop_swaps_le {w a : Nat} (ha : a < 2 ^ w) (f n : Nat) : (jacobiWorkLoop f a n).1 ≤ 2 * w := by
  induction w generalizing f a n with
  | zero =>
    obtain rfl : a = 0 := Nat.lt_one_iff.mp ha
    simp
  | succ w ih =>
    rcases Nat.eq_zero_or_pos a with rfl | ha0
    · simp
    obtain ⟨r, hr0, hra, hfirst⟩ := jacobiWorkLoop_le_succ ha0.ne' f n
    rcases Nat.eq_zero_or_pos (n % r) with hm | hm
    · rw [hm, jacobiWorkLoop_zero_left] at hfirst
      omega
    · obtain ⟨q, hq0, hqm, hsecond⟩ := jacobiWorkLoop_le_succ hm.ne' (f - 1) r
      have hhalf : 2 * (r % q) < r := two_mul_mod_lt hq0 (hqm.trans (Nat.mod_lt n hr0).le)
      have hrest := ih (a := r % q) (by rw [pow_succ] at ha; omega) (f - 1 - 1) q
      omega

/-- A number of at most w bits is halved at most w times. -/
theorem halvingCount_le {w a : Nat} (ha : a < 2 ^ w) (f : Nat) : halvingCount f a ≤ w := by
  induction f generalizing w a with
  | zero => exact Nat.zero_le _
  | succ f ih =>
    rw [halvingCount]
    split
    · next h =>
      cases w with
      | zero => omega
      | succ w => exact Nat.succ_le_succ (ih (by rw [pow_succ] at ha; omega))
    · exact Nat.zero_le _

/-- At most w halvings for each swap, as every a of the loop has at most w bits (R151). -/
theorem jacobiWorkLoop_halvings_le {w a : Nat} (ha : a < 2 ^ w) (f n : Nat) :
    (jacobiWorkLoop f a n).2 ≤ (jacobiWorkLoop f a n).1 * w := by
  induction f generalizing a n with
  | zero => exact Nat.zero_le _
  | succ f ih =>
    rw [jacobiWorkLoop]
    split
    · exact Nat.zero_le _
    · next h0 =>
      obtain ⟨hne, hle⟩ := stripTwos_fst_bounds h0 a n 1
      have hlt := Nat.mod_lt n (Nat.pos_of_ne_zero hne)
      rw [Nat.succ_mul]
      exact Nat.add_le_add (ih (by omega) _) (halvingCount_le ha a)

/-- Settles O32: the loop starts from a modulo n, which has at most w bits, and 2·w swaps are already enough. -/
theorem jacobiWorkIsBounded : Obligations.JacobiWorkIsBounded := by
  intro w a n hn hw
  have ha : a % n < 2 ^ w := (Nat.mod_lt a (by omega)).trans hw
  have hswaps : (jacobiWork a n).1 ≤ 2 * w + 1 := (jacobiWorkLoop_swaps_le ha _ n).trans (Nat.le_succ _)
  refine ⟨hswaps, ?_⟩
  calc (jacobiWork a n).1 + (jacobiWork a n).2
      ≤ (jacobiWork a n).1 + (jacobiWork a n).1 * w := Nat.add_le_add_left (jacobiWorkLoop_halvings_le ha _ n) _
    _ = (jacobiWork a n).1 * (w + 1) := by ring
    _ ≤ (2 * w + 1) * (w + 1) := Nat.mul_le_mul_right _ hswaps

end Sys2Proof.Machine
end

section
/-! PROOFS. The Montgomery multiplier (43_montgomery.md): the states MONTMUL and MONTR2 leave and their words (R155 to R157), the
identities of the Montgomery product (R158), the bit-serial loop (R159) and the doublings that give the squared radix (R161). -/

namespace Sys2Proof.Machine

/-! ### The Montgomery product -/

section
variable {n : Nat} (hn : n % 2 = 1)
include hn

/-- Doubling can be cancelled modulo an odd number, w times over: R = 2^w is a unit (R155). -/
theorem modEq_of_mul_radix {w x y : Nat} (h : x * 2 ^ w ≡ y * 2 ^ w [MOD n]) : x ≡ y [MOD n] :=
  Nat.ModEq.cancel_right_of_coprime ((Nat.odd_iff.mpr hn).coprime_two_right.pow_right w) h

/-- Any v with v · R ≡ a · b is the Montgomery product modulo n (R155). -/
theorem montprod_eq_mod {w a b v : Nat} (h : v * 2 ^ w ≡ a * b [MOD n]) : montprod w a b n = v % n := by
  obtain ⟨hlt, hprod⟩ := montprod_spec hn w a b
  have hv : montprod w a b n ≡ v [MOD n] := modEq_of_mul_radix hn (Nat.ModEq.trans hprod h.symm)
  rw [← Nat.mod_eq_of_lt hlt]
  exact hv

/-- The Montgomery product is the only r below n with r · R ≡ a · b (R155). -/
theorem eq_montprod_iff {w a b r : Nat} : r < n ∧ r * 2 ^ w % n = a * b % n ↔ r = montprod w a b n := by
  constructor
  · rintro ⟨hlt, hprod⟩
    rw [montprod_eq_mod hn hprod, Nat.mod_eq_of_lt hlt]
  · rintro rfl
    exact montprod_spec hn w a b

/-- A product by 1 leaves Montgomery form: it is a product by R⁻¹ (R158). -/
theorem montprod_one_right {w rinv : Nat} (hinv : 2 ^ w * rinv ≡ 1 [MOD n]) (a : Nat) :
    montprod w a 1 n = a * rinv % n := by
  apply montprod_eq_mod hn
  calc a * rinv * 2 ^ w = a * (2 ^ w * rinv) := by ring
    _ ≡ a * 1 [MOD n] := hinv.mul_left a

/-- A second product, by the squared radix, takes the R⁻¹ of the first one away (R158). -/
theorem montprod_montprod_radixSquare (w a b : Nat) :
    montprod w (montprod w a b n) (radixSquare w n) n = a * b % n := by
  rw [montprod_radixSquare hn]
  exact (montprod_spec hn w a b).2

/-- The product of two numbers in Montgomery form is the Montgomery form of their product (R158). -/
theorem montprod_montgomeryForm (w a b : Nat) :
    montprod w (a * 2 ^ w % n) (b * 2 ^ w % n) n = a * b * 2 ^ w % n := by
  apply montprod_eq_mod hn
  calc a * b * 2 ^ w * 2 ^ w = a * 2 ^ w * (b * 2 ^ w) := by ring
    _ ≡ (a * 2 ^ w % n) * (b * 2 ^ w % n) [MOD n] := ((Nat.mod_modEq _ n).mul (Nat.mod_modEq _ n)).symm

/-- The Montgomery form of 1 is neutral, here for itself (R158). -/
theorem montprod_radix_radix (w : Nat) : montprod w (2 ^ w % n) (2 ^ w % n) n = 2 ^ w % n := by
  simpa using montprod_montgomeryForm hn w 1 1

end

theorem montprod_comm (w a b n : Nat) : montprod w a b n = montprod w b a n := by
  rw [montprod, montprod, mul_comm a b]

/-- Settles O24, identity by identity. -/
theorem montgomeryProductIdentities : Obligations.MontgomeryProductIdentities := fun w a b n hn =>
  ⟨montprod_radixSquare hn w a, fun _ _ hinv => montprod_one_right hn hinv a, montprod_montprod_radixSquare hn w a b,
    montprod_montgomeryForm hn w a b, montprod_comm w a b n, montprod_radix_radix hn w⟩

/-! ### The commands -/

theorem oddModulus_zero (v : Nat) : oddModulus 0 v = .error .invalidModulus := if_pos rfl

/-- An even modulus other than 0 fails the second check of the Montgomery family (R156, R157). -/
theorem oddModulus_of_even {n : Nat} (h0 : n ≠ 0) (hn : n % 2 = 0) (v : Nat) : oddModulus n v = .error .evenModulus := by
  simp [oddModulus, isEven, h0, hn]

/-- The word of a MONTMUL command: the term of ZERO is 0 (R90, R156). -/
theorem encode_montmul (rd ra rb rm : RegIdx) : encode (.montmul rd ra rb rm) =
    BitVec.ofNat 32 (rm.val * 2 ^ 20 + rb.val * 2 ^ 16 + ra.val * 2 ^ 12 + rd.val * 2 ^ 8 + 0x04) := by
  simp [encode, Instr.fields, packFields]

/-- The word of a MONTR2 command: the terms of RA, RB and ZERO are 0 (R90, R157). -/
theorem encode_montr2 (rd rm : RegIdx) :
    encode (.montr2 rd rm) = BitVec.ofNat 32 (rm.val * 2 ^ 20 + rd.val * 2 ^ 8 + 0x05) := by
  simp [encode, Instr.fields, packFields]

/-- Settles O22: the inverse of the radix is `radixInv`, the modulus decides between value and error, and of the words with
MONTMUL's opcode those with ZERO 0 are the legal ones. -/
theorem montmulWritesTheMontgomeryProduct : Obligations.MontmulWritesTheMontgomeryProduct := by
  refine ⟨fun rd ra rb rm s hn => ?_, fun rd ra rb rm s hn => ?_, fun rd ra rb rm s h0 hn => ?_, encode_montmul,
    fun c hop => ?_⟩
  · obtain ⟨hlt, hinv⟩ := radixInv_spec hn (width Config.words)
    refine ⟨_, _, ⟨hlt, ?_⟩, rfl, fun r' => eq_montprod_iff hn, ?_⟩
    · rw [mul_comm, hinv]
    · rw [exec_montmul_of_odd hn, complete_value_eq_completedWith, montprod]
  · rw [exec_eq, outcomeAt, hn, oddModulus_zero, complete_error_eq_failedWith]
  · rw [exec_eq, outcomeAt, oddModulus_of_even h0 hn, complete_error_eq_failedWith]
  · rw [decode_illegal_iff, decode_legal_iff]
    simp [hop]

/-- Settles O23: the modulus decides between value and error, and of the words with MONTR2's opcode those with RA, RB and ZERO 0
are the legal ones. -/
theorem montr2WritesTheSquaredRadix : Obligations.Montr2WritesTheSquaredRadix := by
  refine ⟨fun rd rm s hn => ?_, fun rd rm s hn => ?_, fun rd rm s h0 hn => ?_, encode_montr2, fun c hop => ?_⟩
  · rw [exec_montr2_of_odd hn, complete_value_eq_completedWith, radixSquare]
  · rw [exec_eq, outcomeAt, hn, oddModulus_zero, complete_error_eq_failedWith]
  · rw [exec_eq, outcomeAt, oddModulus_of_even h0 hn, complete_error_eq_failedWith]
  · rw [decode_illegal_iff, decode_legal_iff]
    simp [hop, imp_iff_not_or, or_comm, or_assoc]

/-! ### The bit-serial loop -/

/-- Doubling undoes a halving modulo an odd n, below n or not. -/
theorem halveMod_mul_two {n : Nat} (hn : n % 2 = 1) (x : Nat) : halveMod n x * 2 ≡ x [MOD n] := by
  unfold halveMod
  split
  · rw [show x / 2 * 2 = x by omega]
  · rw [show (x + n) / 2 * 2 = x + n by omega]
    exact Nat.add_mod_right x n

/-- A halving modulo n is at most the mean of its argument and n. -/
theorem halveMod_le (n x : Nat) : halveMod n x ≤ (x + n) / 2 := by
  unfold halveMod
  split <;> omega

/-- R159 halves after adding n to an odd number. -/
theorem halveMod_eq_ite_add (n x : Nat) : halveMod n x = (if x % 2 = 1 then x + n else x) / 2 := by
  unfold halveMod
  rcases Nat.mod_two_eq_zero_or_one x with h | h <;> simp [h]

/-- One step of R159: add b for a 1 bit of a, and halve modulo n. -/
theorem addShift_succ (a b n i : Nat) :
    addShift a b n (i + 1) = halveMod n (addShift a b n i + (a.testBit i).toNat * b) := by
  have hbit : (a.testBit i).toNat * b = if a.testBit i then b else 0 := by cases a.testBit i <;> simp
  rw [hbit, addShift, halveMod_eq_ite_add]

/-- S stays below 2·n: with b it is below 3·n, with n below 4·n, and then it is halved (R159). -/
theorem addShift_lt {a b n : Nat} (hb : b < n) (i : Nat) : addShift a b n i < 2 * n := by
  induction i with
  | zero => rw [addShift]; omega
  | succ i ih =>
    rw [addShift_succ]
    have hle := halveMod_le n (addShift a b n i + (a.testBit i).toNat * b)
    have hbit : (a.testBit i).toNat * b ≤ b := mul_le_of_le_one_left (Nat.zero_le b) (Bool.toNat_le _)
    omega

/-- After i steps, S · 2^i is the product of b and the low i bits of a, modulo n (R159). -/
theorem addShift_mul_two_pow {n : Nat} (hn : n % 2 = 1) (a b i : Nat) :
    addShift a b n i * 2 ^ i ≡ a % 2 ^ i * b [MOD n] := by
  induction i with
  | zero =>
    rw [addShift, zero_mul, pow_zero, Nat.mod_one, zero_mul]
  | succ i ih =>
    calc addShift a b n (i + 1) * 2 ^ (i + 1)
        = halveMod n (addShift a b n i + (a.testBit i).toNat * b) * 2 * 2 ^ i := by rw [addShift_succ]; ring
      _ ≡ (addShift a b n i + (a.testBit i).toNat * b) * 2 ^ i [MOD n] := (halveMod_mul_two hn _).mul_right _
      _ = addShift a b n i * 2 ^ i + 2 ^ i * (a.testBit i).toNat * b := by ring
      _ ≡ a % 2 ^ i * b + 2 ^ i * (a.testBit i).toNat * b [MOD n] := ih.add_right _
      _ = a % 2 ^ (i + 1) * b := by rw [Nat.mod_pow_succ, Nat.toNat_testBit, add_mul]

/-- The conditional subtraction that ends R159 reduces S modulo n. -/
theorem montSerial_eq_mod {b n : Nat} (hb : b < n) (w a : Nat) : montSerial w a b n = addShift a b n w % n := by
  have hlt := addShift_lt (a := a) hb w
  rw [montSerial]
  split
  · next hge => rw [Nat.mod_eq_sub_mod hge, Nat.mod_eq_of_lt (by omega)]
  · next hge => rw [Nat.mod_eq_of_lt (not_le.mp hge)]

/-- Settles O28: after w steps S · 2^w is a · b modulo n, as a has no bits beyond them. -/
theorem montgomerySerialLoopAgrees : Obligations.MontgomerySerialLoopAgrees := by
  intro w a b n hn _ hb ha
  have hS := addShift_mul_two_pow hn a b w
  rw [Nat.mod_eq_of_lt ha] at hS
  exact ⟨by rw [montSerial_eq_mod hb, montprod_eq_mod hn hS], fun i _ => addShift_lt hb i⟩

/-! ### The doublings -/

/-- k modular doublings are a product by 2^k (R161). -/
theorem doublings_mod (n k x : Nat) : doublings n k (x % n) = 2 ^ k * x % n := by
  induction k generalizing x with
  | zero => rw [doublings, pow_zero, one_mul]
  | succ k ih => rw [doublings, Nat.mul_mod_mod, ih, pow_succ, mul_assoc]

/-- Settles O29: the doublings start from 1. -/
theorem radixSquareByDoublings : Obligations.RadixSquareByDoublings := by
  intro w n _
  rw [doublings_mod, mul_one, radixSquare]

end Sys2Proof.Machine
end

section
/-! PROOFS. Exceptions (60_exceptions.md): the error code each command completes with (R171 to R176), what a completion with an
error writes (R177, R178), and ERR and JSYM as true to the command word in CMD (R171, R32). -/

namespace Sys2Proof.Machine

/-! ### The error code of a completion -/

/-- The code of an outcome: that of its error, and 0 without one (R171). -/
def CmdOutcome.errCode : CmdOutcome → ErrCode
  | .value _ => .ok
  | .valueSym _ _ => .ok
  | .error e => e

/-- A completion puts its outcome's code in ERR (R42). -/
@[simp] theorem complete_err (b : Block) (rd : RegIdx) (o : CmdOutcome) : (b.complete rd o).err = o.errCode := by
  cases o <;> rfl

/-- A command completes with the code of success or with one of its own (R171). -/
theorem outcomeAt_errCode_mem_raises (words : Nat) (s : State) (i : Instr) :
    (outcomeAt words s i).errCode = .ok ∨ (outcomeAt words s i).errCode ∈ raises i := by
  rcases outcomeAt_cases words s i with ⟨e, he, ho⟩ | ⟨v, ho⟩ | ⟨_, _, _, v, j, _, ho⟩ <;> rw [ho]
  · exact .inr he
  · exact .inl rfl
  · exact .inl rfl

theorem isEven_iff {n : Nat} : isEven n = true ↔ n % 2 = 0 := beq_iff_eq

/-- MODEXP checks that its modulus is not 0 (R173). -/
theorem modexpOutcome_errCode (base exp n : Nat) :
    (modexpOutcome base exp n).errCode = if n = 0 then .invalidModulus else .ok := by
  unfold modexpOutcome
  split <;> rfl

/-- JACOBI checks only the parity of its modulus (R175). -/
theorem jacobiOutcome_errCode (a n : Nat) :
    (jacobiOutcome a n).errCode = if n % 2 = 0 then .jacobiDomain else .ok := by
  simp only [jacobiOutcome, isEven_iff]
  split <;> rfl

/-- The Montgomery family checks its modulus for zero before parity (R176). -/
theorem oddModulus_errCode (n v : Nat) :
    (oddModulus n v).errCode =
      if n = 0 then .invalidModulus else if n % 2 = 0 then .evenModulus else .ok := by
  simp only [oddModulus, isEven_iff]
  repeat' split
  all_goals rfl

/-! ### ERR and JSYM are true to the command word -/

/-- Both fields of STATUS that speak of the command word in CMD are true to it (R171, R32). -/
structure Block.TrueToCommand (b : Block) : Prop where
  err : b.ErrNamesCommand
  jsym : b.SymbolNamesJacobi

/-- The code of success says nothing of the command. -/
theorem errNamesCommand_of_ok {b : Block} (h : b.err = .ok) : b.ErrNamesCommand := by
  simp [Block.ErrNamesCommand, h]

theorem trueToCommand_of_clear {b : Block} (herr : b.err = .ok) (hjsym : b.jsym = .zero) : b.TrueToCommand where
  err := errNamesCommand_of_ok herr
  jsym := fun hj => absurd hjsym hj

/-- The relation is one of ERR, JSYM and CMDREG only. -/
theorem Block.TrueToCommand.congr {b b' : Block} (h : b.TrueToCommand) (herr : b'.err = b.err) (hjsym : b'.jsym = b.jsym)
    (hcmdreg : b'.cmdreg = b.cmdreg) : b'.TrueToCommand where
  err := by
    rw [Block.ErrNamesCommand, herr, hcmdreg]
    exact h.err
  jsym := by
    rw [Block.SymbolNamesJacobi, hjsym, hcmdreg]
    exact h.jsym

/-- A code of a command in CMD names it: no command raises code 1 (R171). -/
theorem errNamesCommand_of_mem_raises {b : Block} {i : Instr} (hd : decode b.cmdreg = .cmd i) (he : b.err ∈ raises i) :
    b.ErrNamesCommand := by
  unfold Block.ErrNamesCommand
  cases hcode : b.err with
  | ok => trivial
  | illegalCmd => cases i <;> simp [raises, hcode] at he
  | _ => exact ⟨i, hd, hcode ▸ he⟩

@[simp] theorem engineTurn_cmdreg (b : Block) : b.engineTurn.cmdreg = b.cmdreg := by
  rcases engineTurn_cases b with ⟨-, h⟩ | ⟨-, rd, o, h⟩ <;> simp [h]

/-- A completion leaves a code that the word in CMD can raise (R171, R172). -/
theorem errNamesCommand_engineTurn {b : Block} (hb : b.busy = true) : b.engineTurn.ErrNamesCommand := by
  cases hd : decode b.cmdreg with
  | illegal why =>
    rw [engineTurn_illegal hb hd]
    exact ⟨why, hd⟩
  | cmd i =>
    have herr : b.engineTurn.err = (outcomeAt Config.words ⟨b, [], 0⟩ i).errCode := by
      rw [engineTurn_cmd hb hd, complete_err]
    rcases outcomeAt_errCode_mem_raises Config.words ⟨b, [], 0⟩ i with hok | hraises
    · exact errNamesCommand_of_ok (herr.trans hok)
    · exact errNamesCommand_of_mem_raises ((engineTurn_cmdreg b).symm ▸ hd) (herr ▸ hraises)

theorem trueToCommand_engineTurn {b : Block} (h : b.TrueToCommand) : b.engineTurn.TrueToCommand := by
  cases hb : b.busy with
  | false => exact (engineTurn_idle hb).symm ▸ h
  | true =>
    refine ⟨errNamesCommand_engineTurn hb, fun hj => ?_⟩
    rw [engineTurn_cmdreg]
    exact (engineTurn_jsym hb hj).2

theorem trueToCommand_busWrite {words : Nat} {b : Block} (h : b.TrueToCommand) (w : WordIdx) (d : Word) :
    (b.busWrite words w d).TrueToCommand := by
  rcases busWrite_cases words b w d with
    hw | ⟨-, -, hw⟩ | ⟨-, -, hw⟩ | ⟨-, hw⟩ | ⟨-, -, hw⟩ | ⟨-, hw⟩ | ⟨_, _, -, -, -, hw⟩ <;> rw [hw]
  · exact h
  · exact trueToCommand_of_clear rfl rfl
  · exact h.congr rfl rfl rfl
  · exact h.congr rfl rfl rfl
  · exact trueToCommand_of_clear rfl rfl
  · exact h.congr rfl rfl rfl
  · exact h.congr rfl rfl rfl

/-- A step of any kind keeps ERR and JSYM true to the command word (R171, R32). -/
theorem trueToCommand_after {b : Block} (h : b.TrueToCommand) (k : StepKind) : (b.after k).TrueToCommand := by
  cases k with
  | busWrite w d => exact trueToCommand_busWrite h w d
  | busRead w => exact h
  | reset => exact trueToCommand_of_clear rfl rfl
  | complete => exact trueToCommand_engineTurn h

/-- Settles O9: an accept and a reset clear both fields, a completion writes them for the word in CMD, and no other step
touches them or CMD. -/
theorem stepKeepsErrorAndSymbolTrueToCommand : Obligations.StepKeepsErrorAndSymbolTrueToCommand := by
  intro s t herr hjsym h
  obtain ⟨k, hk⟩ := nextKind_of_step h
  obtain ⟨herr', hjsym'⟩ := trueToCommand_after ⟨herr, hjsym⟩ k
  rw [step_block hk h]
  exact ⟨herr', hjsym'⟩

/-! ### Failed commands -/

/-- A completion that leaves an error code is a completion with that error, and writes no register (R177). -/
theorem complete_eq_takeError_of_err {b : Block} {rd : RegIdx} {o : CmdOutcome} (h : (b.complete rd o).err ≠ .ok) :
    b.complete rd o = b.takeError (b.complete rd o).err := by
  cases o with
  | value v => exact absurd rfl h
  | valueSym v j => exact absurd rfl h
  | error e => rfl

/-- A word written to CMD of an idle block is accepted and completes in the engine's next turn (R33, R42). -/
theorem runSteps_accept_complete {b : Block} (hb : b.busy = false) (d : Word) (r : Word) :
    runSteps 2 ⟨b, [.port (.busWrite 4 d), .port .complete], r⟩ = .next ⟨(b.inFlight d).engineTurn, [], 0⟩ := by
  rw [runSteps_port, runSteps_port, after_accept hb]
  rfl

/-- A busy block's completion that leaves an error code writes no register (R177). -/
theorem engineTurn_eq_takeError_of_err {b : Block} (hb : b.busy = true) (h : b.engineTurn.err ≠ .ok) :
    b.engineTurn = b.takeError b.engineTurn.err := by
  rcases engineTurn_cases b with ⟨hidle, -⟩ | ⟨-, rd, o, ho⟩
  · simp [hb] at hidle
  · rw [ho] at h ⊢
    exact complete_eq_takeError_of_err h

/-- An accept and an error leave an idle block as it was, but for CMDREG, ERR, DONE and JSYM (R178). -/
theorem takeError_inFlight {b : Block} (hb : b.busy = false) (d : Word) (e : ErrCode) :
    (b.inFlight d).takeError e = { b with cmdreg := d, err := e, done := true, jsym := .zero } := by
  simp only [Block.takeError, Block.finish, Block.inFlight, hb]

/-- Settles O34: the completion of the accepted word takes the error, and the accept changed only CMDREG and STATUS. -/
theorem failedCommandHasNoPartialEffect : Obligations.FailedCommandHasNoPartialEffect := by
  intro s t d hb h herr
  rw [runSteps_accept_complete hb, Host.Outcome.next.injEq] at h
  subst h
  exact (engineTurn_eq_takeError_of_err (inFlight_busy _ _) herr).trans (takeError_inFlight hb d _)

/-- Settles O36: an illegal word completes with code 1, and each command with the code of its own checks. -/
theorem errorCodeFollowsThePriority : Obligations.ErrorCodeFollowsThePriority := by
  refine ⟨⟨rfl, rfl, rfl, rfl, rfl⟩, fun s hk hb => ⟨_, step_eq_after hk, ?_⟩⟩
  rw [Block.after]
  cases hd : decode s.block.cmdreg with
  | illegal why => rw [engineTurn_illegal hb hd, takeError_err]
  | cmd i =>
    rw [engineTurn_cmd hb hd, complete_err]
    cases i with
    | gcd rd ra rb => rfl
    | modexp rd ra rb rm => exact modexpOutcome_errCode _ _ _
    | jacobi rd ra rn => exact jacobiOutcome_errCode _ _
    | montmul rd ra rb rm => exact oddModulus_errCode _ _
    | montr2 rd rm => exact oddModulus_errCode _ _

/-- Settles O35: completion with an error is `finish` with the symbol 0, which raises DONE. -/
theorem errorCompletionWritesOnlyStatus : Obligations.ErrorCompletionWritesOnlyStatus := by
  intro b e
  exact ⟨rfl, fun hie => (interruptIsEnableAndDone _).mpr ⟨hie, takeError_done b e⟩⟩

/-- Settles O37: the accept does not look at the word, and the completion of an illegal one takes the error. -/
theorem illegalWordCompletesWithIllegalCmd : Obligations.IllegalWordCompletesWithIllegalCmd := by
  intro s d why hb hd
  refine ⟨⟨_, step_withTurn_busWrite s 4 d, ?_⟩, _, runSteps_illegal hb hd s.rdata, rfl, rfl, rfl, fun i => rfl⟩
  rw [busWrite_busy]
  exact ⟨by simp, .inr rfl⟩

end Sys2Proof.Machine
end

section
/-! PROOFS. Reset and hazards (70_reset_and_hazards.md): what a reset of either kind leaves (R200 to R203), the quiet block
that only an accept disturbs (R202), and the end of every command (R210, R211). -/

namespace Sys2Proof.Machine

/-! ### Runs -/

/-- What holds of a state, and after each step from a state where it holds, is reached by every number of steps. -/
theorem runSteps_of_invariant {P : State → Prop} (hstep : ∀ s, P s → ∃ t, step s = .next t ∧ P t) {s : State} (hs : P s)
    (n : Nat) : ∃ t, runSteps n s = .next t ∧ P t := by
  induction n generalizing s with
  | zero => exact ⟨s, runSteps_zero s, hs⟩
  | succ n ih =>
    obtain ⟨t, hst, ht⟩ := hstep s hs
    rw [runSteps_succ hst]
    exact ih ht

/-! ### The step of a reset -/

/-- The two kinds of reset are `rst_n` and a write to CTRL with bit 31 set (R200, R201). -/
theorem resets_iff {words : Nat} {k : StepKind} :
    k.resets words = true ↔ k = .reset ∨ ∃ e : Word, e[31] = true ∧ k = .busWrite 2 e := by
  cases k with
  | busWrite w d => simp [and_comm]
  | _ => simp

theorem after_of_resets {k : StepKind} (hk : k.resets Config.words = true) (b : Block) : b.after k = Block.reset := by
  rcases resets_iff.mp hk with rfl | ⟨e, he, rfl⟩
  · rfl
  · exact if_pos he

/-- A reset in front leaves the reset block, whatever the block was, with the other turns to come. -/
theorem step_of_resets {s : State} {k : StepKind} {rest : List Turn} (hk : k.resets Config.words = true)
    (hs : s.turns = .port k :: rest) : step s = .next ⟨Block.reset, rest, 0⟩ := by
  have hkind : s.nextKind Config.base = .ok k := by simp only [State.nextKind, hs, Turn.kind]
  have hout : s.block.outputAfter k = 0 := by rcases resets_iff.mp hk with rfl | ⟨e, -, rfl⟩ <;> rfl
  rw [step_eq_after hkind, after_of_resets hk, hout, hs, List.tail_cons]

/-- Settles O15: the reset leaves an idle block, which accepts; what an accept clears is clear already. -/
theorem commandAcceptedRightAfterReset : Obligations.CommandAcceptedRightAfterReset := by
  intro s k d hk
  refine ⟨_, (runSteps_succ (step_of_resets (resets_iff.mpr hk) rfl) 1).trans (runSteps_port _ _ [] 0 0), ?_⟩
  rw [after_accept reset_busy]
  rfl

/-! ### No completion without an accept -/

/-- No command is in flight and none has completed since the last reset or accept: BUSY, DONE, ERR and JSYM are clear. -/
structure Block.Quiet (b : Block) : Prop where
  busy : b.busy = false
  done : b.done = false
  err : b.err = .ok
  jsym : b.jsym = .zero

theorem quiet_reset : Block.reset.Quiet := ⟨rfl, rfl, rfl, rfl⟩

/-- Without DONE there is no interrupt (R38). -/
theorem Block.Quiet.irq {b : Block} (h : b.Quiet) : b.irq = false := by
  rw [Block.irq, h.done, Bool.and_false]

/-- Only an accept disturbs a quiet block: it has no command to complete. -/
theorem Block.Quiet.after {b : Block} (h : b.Quiet) {k : StepKind} (hk : ∀ d, k ≠ .busWrite 4 d) : (b.after k).Quiet := by
  cases hr : k.resets Config.words with
  | true =>
    rw [after_of_resets hr]
    exact quiet_reset
  | false =>
    obtain ⟨herr, hjsym⟩ := after_err_jsym (b := b) (by simp [h.busy]) (fun _ => hk) hr
    refine ⟨?_, ?_, herr.trans h.err, hjsym.trans h.jsym⟩
    · rw [← Bool.not_eq_true, after_busy]
      rintro (⟨d, hd⟩ | ⟨hb, -⟩)
      · exact hk d hd
      · simp [h.busy] at hb
    · rw [← Bool.not_eq_true, after_done]
      simp [h.busy, h.done]

/-- A turn at the port that writes no command. -/
def Turn.NoCommand (u : Turn) : Prop := ∃ k : StepKind, u = .port k ∧ ∀ d, k ≠ .busWrite 4 d

/-- A quiet block, and no command to come. -/
structure State.Quiet (s : State) : Prop where
  block : s.block.Quiet
  turns : ∀ u ∈ s.turns, u.NoCommand

/-- With no command to come, the next step has a kind and writes none; past the listed turns it is the engine's. -/
theorem nextKind_of_noCommand {s : State} (h : ∀ u ∈ s.turns, u.NoCommand) :
    ∃ k, s.nextKind Config.base = .ok k ∧ ∀ d, k ≠ .busWrite 4 d := by
  obtain ⟨b, turns, r⟩ := s
  cases turns with
  | nil => exact ⟨.complete, rfl, nofun⟩
  | cons u us =>
    obtain ⟨k, rfl, hk⟩ := h u List.mem_cons_self
    exact ⟨k, rfl, hk⟩

/-- A quiet state's step answers a quiet state. -/
theorem State.Quiet.next {s : State} (h : s.Quiet) : ∃ t, step s = .next t ∧ t.Quiet := by
  obtain ⟨k, hkind, hk⟩ := nextKind_of_noCommand h.turns
  exact ⟨_, step_eq_after hkind, h.block.after hk, fun u hu => h.turns u (List.mem_of_mem_tail hu)⟩

/-- The reset state with no turn to come is a fixed point: the engine's turn passes (log entry 6). -/
theorem step_stateReset : step State.reset = .next State.reset :=
  (step_eq_after (k := .complete) rfl).trans (by rw [Block.after, stateReset_block, engineTurn_idle reset_busy]; rfl)

theorem runSteps_stateReset (n : Nat) : runSteps n State.reset = .next State.reset := by
  induction n with
  | zero => rfl
  | succ n ih => rw [runSteps_succ step_stateReset, ih]

/-- Settles O14: the reset leaves the quiet block, which stays quiet until a command is written, and with no turn to come
the state it leaves is the reset state. -/
theorem resetAbandonsTheCommand : Obligations.ResetAbandonsTheCommand := by
  intro s t rest _ hturns h
  obtain ⟨k, hk, hs⟩ : ∃ k : StepKind, k.resets Config.words = true ∧ s.turns = .port k :: rest := by
    rcases hturns with hs | ⟨d, hd, hs⟩
    · exact ⟨.reset, rfl, hs⟩
    · exact ⟨.busWrite 2 d, resets_iff.mpr (.inr ⟨d, hd, rfl⟩), hs⟩
  rw [step_of_resets hk hs, Host.Outcome.next.injEq] at h
  subst h
  refine ⟨rfl, fun hrest n => ?_, ?_⟩
  · have hquiet : State.Quiet ⟨Block.reset, rest, 0⟩ := ⟨quiet_reset, hrest⟩
    obtain ⟨u, hrun, hu⟩ := runSteps_of_invariant (fun _ => State.Quiet.next) hquiet n
    exact ⟨u, hrun, hu.block.busy, hu.block.done, hu.block.err, hu.block.jsym, hu.block.irq⟩
  · rintro rfl
    exact runSteps_stateReset

/-! ### Every command terminates -/

/-- One step past the turns at the port the block is idle: that step is the engine's (R210). -/
theorem runSteps_past_turns_idle {s : State} (hport : s.portOnly) :
    ∃ t, runSteps (s.turns.length + 1) s = .next t ∧ t.block.busy = false := by
  induction hts : s.turns generalizing s with
  | nil =>
    have hkind : s.nextKind Config.base = .ok .complete := by simp only [State.nextKind, hts]
    exact ⟨_, runSteps_succ (step_eq_after hkind) 0, engineTurn_busy s.block⟩
  | cons u us ih =>
    obtain ⟨t, hstep, ht⟩ := portStepsNeverStop s hport
    obtain ⟨e, hrun, hidle⟩ := ih ht (by rw [step_turns hstep, hts, List.tail_cons])
    exact ⟨e, (runSteps_succ hstep _).trans hrun, hidle⟩

/-- Settles O59: the listed turns and the engine's after them are steps enough, whatever the turns do. -/
theorem everyCommandTerminates : Obligations.EveryCommandTerminates := by
  intro s _ hport
  obtain ⟨t, hrun, hidle⟩ := runSteps_past_turns_idle hport
  exact ⟨_, t, le_rfl, hrun, hidle⟩

end Sys2Proof.Machine
end
